-- ==== Sys2Proof/Word.lean ====
section
/-! DEFINITION. The datum of the core and the names of its registers. -/

namespace Sys2Proof

/-- Every datum is exactly one byte, an unsigned integer 0 to 255 (spec R5, `XLEN = 8` of R4). -/
abbrev Byte := BitVec 8

/-- A register index that is already known to be in 0 to 7 (spec R6, R12, `NREG = 8` of R4). -/
abbrev Reg := Fin 8

end Sys2Proof
end

