-- ==== Sys2Proof/Config.lean ====
section
/-! DEFINITION. The parameters of spec R4 (00_scope.md). All values are the spec's. R4 lets a model carry `CMP_SIGNED`,
`GPR_RESET`, `FLAG_RESET` and `MEM_RESET` as configuration; those four rest on the spec's own decisions D2, D5, D6, D7
(log 2, 3, 4, 6). No value is left open, so there is no opaque constant. -/

namespace Sys2Proof.Config

/-- `MEM_SIZE`: number of memory cells, addresses 0 to 255 (R4, R30). -/
abbrev memSize : Nat := 256

/-- `SPREG`: the register that is the stack pointer (R4, R13). -/
abbrev spReg : Reg := 7

/-- `PC_RESET`: PC after reset (R4, R14). -/
abbrev pcReset : Nat := 0

/-- `SP_RESET`: R7 after reset (R4, R13). -/
abbrev spReset : Byte := 0xF4#8

/-- `LOAD_BASE`: the address at which the program image starts (R4, R143). -/
abbrev loadBase : Nat := 0

/-- `GPR_RESET`: R0 to R6 after reset (R4). DESIGN CHOICE of the spec, D5; unsafe (log 2). -/
abbrev gprReset : Byte := 0#8

/-- `FLAG_RESET`: L, G and E after reset (R4). DESIGN CHOICE of the spec, D6; unsafe (log 3). -/
abbrev flagReset : Bool := false

/-- `MEM_RESET`: every cell the load does not write (R4, R141). DESIGN CHOICE of the spec, D7; unsafe (log 4). -/
abbrev memReset : Byte := 0#8

/-- `CMP_SIGNED`: CMP compares unsigned (R4). DESIGN CHOICE of the spec, D2; unsafe for L and G (log 6). -/
abbrev cmpSigned : Bool := false

end Sys2Proof.Config
end

