-- ==== Sys2Proof/Machine/State.lean ====
section
/-! DEFINITION. The complete state of the core (spec R10), as plain data, the reasons a step of the model can stop, and the
state after reset (spec R26, R140). -/

namespace Sys2Proof.Machine

/-- The engine state `run` (spec R18). -/
inductive RunState where
  | running
  | halted
  deriving DecidableEq, Repr

/-- Which access was out of range: the `what` of OutOfRangeAddress (spec R19, R122). -/
inductive AccessKind where
  | fetch    -- FETCH, opcode or operand fetch past address 255
  | reg      -- REG, a register-index byte above 7
  | sp       -- SP, the stack pointer leaving 0 to 255
  | retaddr  -- RETADDR, a return address of 256
  deriving DecidableEq, Repr

/-- The error kinds the core can record, with the offending value (spec R19, R121 to R123).
`unsupportedALUOperation` is in the type because R10 lists it; nothing raises it (R86, R123, log 13). -/
inductive ErrorKind where
  | unknownOpcode (b : BitVec 8)
  | outOfRangeAddress (what : AccessKind) (v : Int)
  | unsupportedALUOperation
  deriving DecidableEq, Repr

/-- Memory: the cells that do not hold `Config.memReset`, addresses strictly rising (the canonical form is `Memory.wf`). -/
abbrev Memory := List Host.Cell

/-- The state of spec R10, field by field. `pc` is an integer in 0 to 256 (R14), which is an invariant of the step and not
part of the type (log 1). The flags are three separate bits (R17). IR is no state (R16, log 14). -/
structure State where
  mem   : Memory             -- M, R11
  regs  : Vector Byte 8      -- x, R12; regs[7] is SP, R13
  pc    : Nat                -- R14
  flagL : Bool               -- L, R17
  flagG : Bool               -- G, R17
  flagE : Bool               -- E, R17
  run   : RunState           -- R18
  err   : Option ErrorKind   -- R19
  out   : List Byte          -- R20, oldest value first
  deriving DecidableEq, Repr

/-- Why a step does not exist. An error of the program is NOT one of these: it is a next state (spec R126, log 8). -/
inductive Fault where
  /-- Raised by `step` alone, in a state with `run = HALTED`: "no further cycles execute" and no step exists there
  (spec R18, R75, D23, log 9). Safe: nothing is claimed of the hardware after the halt. -/
  | halted
  deriving DecidableEq, Repr

/-- Why the model gives no meaning. -/
inductive Refusal where
  /-- Raised by `exec` for an instruction that has no meaning yet. No instruction of this model raises it. Safe. -/
  | notModelled (mnemonic : String)
  deriving DecidableEq, Repr

/-- What a step answers. -/
abbrev StepResult := Host.Outcome State Fault Refusal

/-- Every piece of state immediately after reset (spec R26, R140). The values of R0 to R6, the flags and memory are the
spec's decisions D5, D6, D7 (log 2, 3, 4); those of `err` and `out` its decisions D9, D16 (log 8, 15). -/
def State.reset : State where
  mem   := []
  regs  := #v[Config.gprReset, Config.gprReset, Config.gprReset, Config.gprReset,
              Config.gprReset, Config.gprReset, Config.gprReset, Config.spReset]
  pc    := Config.pcReset
  flagL := Config.flagReset
  flagG := Config.flagReset
  flagE := Config.flagReset
  run   := .running
  err   := none
  out   := []

end Sys2Proof.Machine
end

