-- ==== Sys2Proof/Machine/Memory.lean ====
section
/-! DEFINITION. The 256-byte memory as a list of the cells that do not hold their reset value (spec R11, R30, R32). -/

namespace Sys2Proof.Machine

/-- The canonical form: addresses strictly rising and in 0 to 255, no cell listed that holds the reset value. -/
abbrev Memory.wf (m : Memory) : Prop :=
  m.Pairwise (fun c d => c.1 < d.1) ∧ ∀ c ∈ m, c.1 < Config.memSize ∧ c.2 ≠ Config.memReset

/-- The byte in a cell; an unlisted cell reads as `MEM_RESET` (spec R32, R141). -/
def Memory.read (m : Memory) (a : Nat) : Byte :=
  match m with
  | [] => Config.memReset
  | c :: m' => if c.1 = a then c.2 else Memory.read m' a

/-- Write one cell, no other cell changes (spec R32). Writing the reset value removes the entry. -/
def Memory.write (m : Memory) (a : Nat) (v : Byte) : Memory :=
  match m with
  | [] => if v = Config.memReset then [] else [(a, v)]
  | c :: m' =>
    if a < c.1 then (if v = Config.memReset then c :: m' else (a, v) :: c :: m')
    else if a = c.1 then (if v = Config.memReset then m' else (a, v) :: m')
    else c :: Memory.write m' a v

/-- Write bytes at ascending addresses (spec R143). -/
def Memory.writeBytes (m : Memory) (a : Nat) : List Byte → Memory
  | [] => m
  | b :: bs => Memory.writeBytes (Memory.write m a b) (a + 1) bs

end Sys2Proof.Machine
end

