-- ==== Sys2Proof/Machine/Ops.lean ====
section
/-! DEFINITION. The primitives of spec R6, the only ways a rule touches state, and error entry (spec R126). An instruction
is written as in the spec's pseudocode, in `Except ErrorKind`: `throw K` is `raise K`, and `State.commit` turns the whole into
one indivisible step. -/

namespace Sys2Proof.Machine

/-- `x[i]`, read register `i` (spec R6, R12). -/
def State.reg (s : State) (r : Reg) : Byte := s.regs[r.val]

/-- `x[i] <- v`; no register is hardwired (spec R6, R12). -/
def State.setReg (s : State) (r : Reg) (v : Byte) : State := { s with regs := s.regs.set r.val v }

/-- `SP`, another name for `x[7]` (spec R6, R13). -/
def State.sp (s : State) : Byte := s.reg Config.spReg

/-- `SP <- v` (spec R13). -/
def State.setSp (s : State) (v : Byte) : State := s.setReg Config.spReg v

/-- `pc <- v` (spec R6, R14). -/
def State.setPc (s : State) (v : Nat) : State := { s with pc := v }

/-- `pc <- pc + len`: advances and never wraps (spec R14, R15). -/
def State.advance (s : State) (len : Nat) : State := s.setPc (s.pc + len)

/-- Redirect to a code address held in a byte: absolute, any address 0 to 255, the length is not added (spec R105). -/
def State.redirect (s : State) (target : Byte) : State := s.setPc target.toNat

/-- `MemRead(addr, 1)`: a byte is always a valid address (spec R32, R44). -/
def State.memRead (s : State) (a : Byte) : Byte := s.mem.read a.toNat

/-- `MemWrite(addr, 1, v)` (spec R32). -/
def State.memWrite (s : State) (a v : Byte) : State := { s with mem := s.mem.write a.toNat v }

/-- `Output(v)`: append to the output stream (spec R6, R20). -/
def State.output (s : State) (v : Byte) : State := { s with out := s.out ++ [v] }

/-- `SP <- SP - 1`; a decrement from 0 raises OutOfRangeAddress(SP, -1) (spec R13, R95, R100; D1, log 5). -/
def State.decSp (s : State) : Except ErrorKind State :=
  if s.sp = 0#8 then throw (.outOfRangeAddress .sp (-1)) else pure (s.setSp (s.sp - 1#8))

/-- `SP <- SP + 1`; an increment from 255 raises OutOfRangeAddress(SP, 256) (spec R13, R96, R101; D26, log 5). -/
def State.incSp (s : State) : Except ErrorKind State :=
  if s.sp = 255#8 then throw (.outOfRangeAddress .sp 256) else pure (s.setSp (s.sp + 1#8))

/-- Error entry, `raise K(info)`, applied to the state at the start of the step: every write of the step is discarded,
`run <- HALTED`, `err <- K(info)`, nothing else (spec R126, R127; log 8). There is no return from an error: only a
reset leaves HALTED (spec R129, R140). -/
def State.raise (s : State) (k : ErrorKind) : State := { s with run := .halted, err := some k }

/-- The end of an instruction: all its writes happen, or it raised and none does (spec R6, R74, R126). -/
def State.commit (s : State) (r : Except ErrorKind State) : StepResult :=
  match r with
  | .ok t => .next t
  | .error k => .next (s.raise k)

/-- The next state of an outcome, if it is one. -/
def nextState? (o : StepResult) : Option State :=
  match o with
  | .next t => some t
  | .fault _ => none
  | .refused _ => none

end Sys2Proof.Machine
end

