-- ==== Sys2Proof/Machine/Flags.lean ====
section
/-! DEFINITION. The one flag computation of the core: the comparison of CMP (spec R17, R85, R89). No other instruction
writes a flag. -/

namespace Sys2Proof.Machine

/-- `p < q` under the parameter `CMP_SIGNED` (spec R4, R89; D2, log 6). -/
def lessThan (p q : Byte) : Bool := if Config.cmpSigned then p.slt q else p.ult q

/-- `L <- 0; G <- 0; E <- 0` (spec R89). -/
def State.clearFlags (s : State) : State := { s with flagL := false, flagG := false, flagE := false }

/-- All three flags are reset, then exactly one is set: Less if the first value is less than the second, Greater if it is
greater, Equal otherwise (spec R85, R89; D14, log 6). -/
def State.compareFlags (s : State) (p q : Byte) : State :=
  if lessThan p q then { s.clearFlags with flagL := true }
  else if lessThan q p then { s.clearFlags with flagG := true }
  else { s.clearFlags with flagE := true }

end Sys2Proof.Machine
end

