-- ==== Sys2Proof/Machine/Operands.lean ====
section
/-! DEFINITION. The two operand kinds (spec R52): a register index (R56) and LDI's literal, which is the byte itself (R57). -/

namespace Sys2Proof.Machine

/-- `RegIdx(b)`: the whole byte is the index, neither ignored nor masked (spec R56; D13, log 5). -/
def regIdx (b : Byte) : Except ErrorKind Reg :=
  if h : b.toNat < 8 then pure ⟨b.toNat, h⟩ else throw (.outOfRangeAddress .reg b.toNat)

/-- The value of the register a register operand names (spec R52, R56). -/
def State.regOperand (s : State) (b : Byte) : Except ErrorKind Byte := do
  let r ← regIdx b
  pure (s.reg r)

end Sys2Proof.Machine
end

