-- ==== Sys2Proof/Machine/Alu.lean ====
section
/-! DEFINITION. The ALU and the arithmetic instructions (spec/42_alu.md). -/

namespace Sys2Proof.Machine

/-- The closed set of ALU operations (spec R86). SUB has no instruction (spec R90; D15, log 13). -/
inductive AluOp where
  | add
  | sub
  | mul
  | cmp
  deriving DecidableEq, Repr

/-- `ALU(op, a, b)`: reads `x[a]` and `x[b]`; ADD, SUB and MUL write the result modulo 256 to `x[a]`, CMP writes the three
flags and no register (spec R85, R91). -/
def alu (op : AluOp) (a b : Reg) (s : State) : State :=
  match op with
  | .add => s.setReg a (s.reg a + s.reg b)
  | .sub => s.setReg a (s.reg a - s.reg b)
  | .mul => s.setReg a (s.reg a * s.reg b)
  | .cmp => s.compareFlags (s.reg a) (s.reg b)

/-- The shape of ADD, MUL and CMP: `op1` is checked before `op2`, the ALU is invoked, `pc <- pc + 3` (spec R56, R87). -/
def aluInstr (op : AluOp) (op1 op2 : Byte) (s : State) : StepResult :=
  s.commit do
    let a ← regIdx op1
    let b ← regIdx op2
    pure ((alu op a b s).advance 3)

/-- ADD (spec R87). -/
def execAdd (op1 op2 : Byte) (s : State) : StepResult := aluInstr .add op1 op2 s

/-- MUL (spec R88). -/
def execMul (op1 op2 : Byte) (s : State) : StepResult := aluInstr .mul op1 op2 s

/-- CMP (spec R89). -/
def execCmp (op1 op2 : Byte) (s : State) : StepResult := aluInstr .cmp op1 op2 s

end Sys2Proof.Machine
end

