-- ==== Sys2Proof/Machine/Control.lean ====
section
/-! DEFINITION. CALL, RET, JMP, JEQ, JNE (spec/44_control_transfer.md). -/

namespace Sys2Proof.Machine

/-- `r <- RegIdx(op1); pc <- x[r]` (spec R102). -/
def jumpTo (op1 : Byte) (s : State) : Except ErrorKind State := do
  let target ← s.regOperand op1
  pure (s.redirect target)

/-- `ra <- pc + 2`, the return address, which must fit a memory cell (spec R100; D20, log 5). -/
def returnAddress (s : State) : Except ErrorKind Byte :=
  if s.pc + 2 > 255 then throw (.outOfRangeAddress .retaddr (s.pc + 2 : Nat))
  else pure (BitVec.ofNat 8 (s.pc + 2))

/-- CALL (spec R100). The target register is read after the decrement, which matters for R7 (D19, log 12). -/
def execCall (op1 : Byte) (s : State) : StepResult :=
  s.commit do
    let r ← regIdx op1
    let ra ← returnAddress s
    let s ← s.decSp
    let s := s.memWrite s.sp ra
    pure (s.redirect (s.reg r))

/-- RET (spec R101). -/
def execRet (s : State) : StepResult :=
  s.commit do
    let v := s.memRead s.sp
    let s ← s.incSp
    pure (s.redirect v)

/-- JMP (spec R102). -/
def execJmp (op1 : Byte) (s : State) : StepResult := s.commit (jumpTo op1 s)

/-- JEQ (spec R103). Not taken, it does not access the register (D12, log 11). -/
def execJeq (op1 : Byte) (s : State) : StepResult :=
  s.commit (if s.flagE then jumpTo op1 s else pure (s.advance 2))

/-- JNE (spec R104). Not taken, it does not access the register (D12, log 11). -/
def execJne (op1 : Byte) (s : State) : StepResult :=
  s.commit (if s.flagE then pure (s.advance 2) else jumpTo op1 s)

end Sys2Proof.Machine
end

