-- ==== Sys2Proof/Machine/Halt.lean ====
section
/-! DEFINITION. HLT (spec/45_halt.md). -/

namespace Sys2Proof.Machine

/-- HLT: `run <- HALTED`, nothing else; `pc` keeps the address of the HLT (spec R110; D8, log 7). -/
def execHlt (s : State) : StepResult := .next { s with run := .halted }

end Sys2Proof.Machine
end

