-- ==== Sys2Proof/Machine/LoadPrint.lean ====
section
/-! DEFINITION. LDI and PRN (spec/41_load_immediate_and_print.md). -/

namespace Sys2Proof.Machine

/-- LDI (spec R80). -/
def execLdi (op1 op2 : Byte) (s : State) : StepResult :=
  s.commit do
    let r ← regIdx op1
    pure ((s.setReg r op2).advance 3)

/-- PRN (spec R81). -/
def execPrn (op1 : Byte) (s : State) : StepResult :=
  s.commit do
    let r ← regIdx op1
    pure ((s.output (s.reg r)).advance 2)

end Sys2Proof.Machine
end

