-- ==== Sys2Proof/Machine/Stack.lean ====
section
/-! DEFINITION. PUSH and POP (spec/43_stack.md). -/

namespace Sys2Proof.Machine

/-- PUSH (spec R95). The register is read after the decrement, which matters for R7 (D19, log 12). -/
def execPush (op1 : Byte) (s : State) : StepResult :=
  s.commit do
    let r ← regIdx op1
    let s ← s.decSp
    pure ((s.memWrite s.sp (s.reg r)).advance 2)

/-- POP (spec R96). The register is written first, and the increment is tested on R7 as it is then, which matters for R7
(D19, log 12). -/
def execPop (op1 : Byte) (s : State) : StepResult :=
  s.commit do
    let r ← regIdx op1
    let s ← (s.setReg r (s.memRead s.sp)).incSp
    pure (s.advance 2)

end Sys2Proof.Machine
end

