-- ==== Sys2Proof/Syntax.lean ====
section
/-! DEFINITION. The instruction set: one constructor per row of spec/opcode_table.json (spec R53). -/

namespace Sys2Proof

/-- The 13 instructions of spec R53. A register operand is the raw operand byte; whether it is at most 7 is tested when
the instruction executes (R56, R63). -/
inductive Instr where
  | hlt                  -- HLT, format Z
  | ret                  -- RET, format Z
  | push (op1 : Byte)    -- PUSH r, format R
  | pop (op1 : Byte)     -- POP r, format R
  | prn (op1 : Byte)     -- PRN r, format R
  | call (op1 : Byte)    -- CALL r, format R
  | jmp (op1 : Byte)     -- JMP r, format R
  | jeq (op1 : Byte)     -- JEQ r, format R
  | jne (op1 : Byte)     -- JNE r, format R
  | ldi (op1 op2 : Byte) -- LDI r, literal, format RI
  | add (op1 op2 : Byte) -- ADD a, b, format RR
  | mul (op1 op2 : Byte) -- MUL a, b, format RR
  | cmp (op1 op2 : Byte) -- CMP a, b, format RR
  deriving DecidableEq, Repr

/-- The operand bytes that are register indices, in the order in which they are checked (R51, R52, R56). -/
def Instr.registerOperands : Instr → List Byte
  | .hlt | .ret => []
  | .push r | .pop r | .prn r | .call r | .jmp r | .jeq r | .jne r | .ldi r _ => [r]
  | .add a b | .mul a b | .cmp a b => [a, b]

/-- All operand bytes in memory order: `op1` at `pc + 1`, `op2` at `pc + 2` (R52). -/
def Instr.operands : Instr → List Byte
  | .hlt | .ret => []
  | .push r | .pop r | .prn r | .call r | .jmp r | .jeq r | .jne r => [r]
  | .ldi r v => [r, v]
  | .add a b | .mul a b | .cmp a b => [a, b]

end Sys2Proof
end

