-- ==== Sys2Proof/Machine/Dispatch.lean ====
section
/-! DEFINITION. Dispatch: exactly one rule per opcode (spec R73). -/

namespace Sys2Proof.Machine

def exec (i : Instr) (s : State) : Host.Outcome State Fault Refusal :=
  match i with
  | .hlt => Sys2Proof.Machine.execHlt s
  | .ret => Sys2Proof.Machine.execRet s
  | .push op1 => Sys2Proof.Machine.execPush op1 s
  | .pop op1 => Sys2Proof.Machine.execPop op1 s
  | .prn op1 => Sys2Proof.Machine.execPrn op1 s
  | .call op1 => Sys2Proof.Machine.execCall op1 s
  | .jmp op1 => Sys2Proof.Machine.execJmp op1 s
  | .jeq op1 => Sys2Proof.Machine.execJeq op1 s
  | .jne op1 => Sys2Proof.Machine.execJne op1 s
  | .ldi op1 op2 => Sys2Proof.Machine.execLdi op1 op2 s
  | .add op1 op2 => Sys2Proof.Machine.execAdd op1 op2 s
  | .mul op1 op2 => Sys2Proof.Machine.execMul op1 op2 s
  | .cmp op1 op2 => Sys2Proof.Machine.execCmp op1 op2 s

end Sys2Proof.Machine
end

