-- ==== Sys2Proof/WellFormed.lean ====
section
/-! DEFINITION. Which instructions are well formed: every register operand names one of the eight registers. An ill-formed
instruction is still decoded and still executed (it raises OutOfRangeAddress(REG, value) when it accesses the register). -/

namespace Sys2Proof

/-- The legal values of a register-index byte: 0 to 7 (spec R51, R56). -/
def registerOperandOk (b : Byte) : Bool := decide (b.toNat ≤ 7)

/-- Every register operand is legal; a literal is always legal (spec R51, R56, R57). -/
def Instr.wellFormed (i : Instr) : Bool := i.registerOperands.all registerOperandOk

end Sys2Proof
end

