-- ==== Sys2Proof/Decode.lean ====
section
/-! DEFINITION. The encoding of spec/30_encoding.md: opcode table, decoder, encoder. -/

namespace Sys2Proof

/-- The mnemonics of the opcode table (spec R53). -/
inductive Opcode where
  | hlt | ret | push | pop | prn | call | jmp | jeq | jne | ldi | add | mul | cmp
  deriving DecidableEq, Repr

/-- The opcode byte of each mnemonic (spec R53, the binary column). -/
def Opcode.byte : Opcode → Byte
  | .hlt  => 0b00000001#8
  | .ret  => 0b00010001#8
  | .push => 0b01000101#8
  | .pop  => 0b01000110#8
  | .prn  => 0b01000111#8
  | .call => 0b01010000#8
  | .jmp  => 0b01010100#8
  | .jeq  => 0b01010101#8
  | .jne  => 0b01010110#8
  | .ldi  => 0b10000010#8
  | .add  => 0b10100000#8
  | .mul  => 0b10100010#8
  | .cmp  => 0b10100111#8

/-- The rows of the opcode table (spec R53). -/
def Opcode.all : List Opcode :=
  [.hlt, .ret, .push, .pop, .prn, .call, .jmp, .jeq, .jne, .ldi, .add, .mul, .cmp]

/-- The instruction a byte selects: the row whose opcode equals it in all eight bits; no row for an unknown opcode
(spec R53, R55, R73). -/
def Opcode.ofByte? (b : Byte) : Option Opcode := Opcode.all.find? fun o => o.byte == b

/-- `nops(IR) = IR[7:6]`, the number of operand bytes (spec R50); `b[7:6]` is `b div 64` (spec R5). -/
def operandCount (b : Byte) : Nat := b.toNat / 64

/-- `len(IR) = IR[7:6] + 1` (spec R50). -/
def instrLength (b : Byte) : Nat := operandCount b + 1

/-- The instruction of an opcode and its operand bytes; operand bytes the format does not have are ignored (spec R51, R63). -/
def Opcode.toInstr (o : Opcode) (op1 op2 : Byte) : Instr :=
  match o with
  | .hlt  => .hlt
  | .ret  => .ret
  | .push => .push op1
  | .pop  => .pop op1
  | .prn  => .prn op1
  | .call => .call op1
  | .jmp  => .jmp op1
  | .jeq  => .jeq op1
  | .jne  => .jne op1
  | .ldi  => .ldi op1 op2
  | .add  => .add op1 op2
  | .mul  => .mul op1 op2
  | .cmp  => .cmp op1 op2

/-- Why a byte list is not an instruction. `noBytes` and `missingOperand` are a list that ends too early (log 22);
`unknownOpcode` is the verdict `Unknown b0` of spec R63. -/
inductive DecodeError where
  | noBytes
  | unknownOpcode (b0 : Byte)
  | missingOperand (k : Nat)
  deriving DecidableEq, Repr

/-- The decoder, total on any bytes: the instruction at the head of the list and the bytes after it. The opcode byte alone
decides whether the opcode is known and how many operand bytes follow (spec R50, R55, R59, R63). -/
def decode : List Byte → Except DecodeError (Instr × List Byte)
  | [] => .error .noBytes
  | b0 :: rest =>
    match Opcode.ofByte? b0 with
    | none => .error (.unknownOpcode b0)
    | some o =>
      match operandCount b0, rest with
      | 0, _ => .ok (o.toInstr 0#8 0#8, rest)
      | _ + 1, [] => .error (.missingOperand 1)
      | 1, op1 :: rest' => .ok (o.toInstr op1 0#8, rest')
      | _ + 2, [_] => .error (.missingOperand 2)
      | _ + 2, op1 :: op2 :: rest' => .ok (o.toInstr op1 op2, rest')

/-- The opcode of an instruction. -/
def Instr.opcode : Instr → Opcode
  | .hlt => .hlt
  | .ret => .ret
  | .push _ => .push
  | .pop _ => .pop
  | .prn _ => .prn
  | .call _ => .call
  | .jmp _ => .jmp
  | .jeq _ => .jeq
  | .jne _ => .jne
  | .ldi _ _ => .ldi
  | .add _ _ => .add
  | .mul _ _ => .mul
  | .cmp _ _ => .cmp

/-- The encoder: the opcode byte, then the operand bytes at ascending addresses (spec R50 to R53). -/
def encode (i : Instr) : List Byte := i.opcode.byte :: i.operands

/-- The first `n` bytes of a number, the least significant first: how spec/opcode_table.json numbers the bits of an
instruction (bit 0 is the least significant bit of byte 0, the byte at the lowest address, R33). -/
def wordBytes : Nat → Nat → List Byte
  | 0, _ => []
  | n + 1, w => BitVec.ofNat 8 w :: wordBytes n (w / 256)

/-- Bytes of the longest defined instruction (spec R50, R58, `MAX_ILEN` of R4). -/
abbrev maxInstrBytes : Nat := 3

/-- The bytes of a table word: the low `nbits` bits of `w`, zeros above, up to the longest instruction. -/
def tableWordBytes (nbits w : Nat) : List Byte := wordBytes maxInstrBytes (w % 2 ^ nbits)

/-- The instruction the decoder reads from a word of the opcode table. -/
def decodeTableWord (nbits w : Nat) : Option Instr :=
  match decode (tableWordBytes nbits w) with
  | .ok (i, _) => some i
  | .error _ => none

end Sys2Proof
end

