-- ==== Sys2Proof/Machine/Fetch.lean ====
section
/-! DEFINITION. The part of a step common to every instruction: fetch, length decode, operand fetch
(spec/40_fetch_decode_execute.md). -/

namespace Sys2Proof.Machine

/-- `Fetch(pc)` with `a = pc`, and `FetchOperand(pc, k)` with `a = pc + k`: an address past 255 raises
OutOfRangeAddress(FETCH, a) (spec R71, R72; D1, D3, log 1, 5). -/
def State.fetchByte (s : State) (a : Nat) : Except ErrorKind Byte :=
  if a > 255 then throw (.outOfRangeAddress .fetch a) else pure (s.mem.read a)

/-- Operand byte `k` of an instruction with `n` operand bytes. A byte the instruction does not have is not fetched; the 0 in
its place is ignored by `Opcode.toInstr` (spec R70, R72). -/
def State.fetchOperand (s : State) (n k : Nat) : Except ErrorKind Byte :=
  if k ≤ n then s.fetchByte (s.pc + k) else pure 0#8

/-- Steps 1 to 3 of spec R70: opcode fetch, unknown-opcode test, operand fetches in ascending address. IR is a local of the
step (R16, log 14). No operand byte is fetched for an unknown opcode (R72; D11, log 10). -/
def fetchInstr (s : State) : Except ErrorKind Instr := do
  let ir ← s.fetchByte s.pc
  match Opcode.ofByte? ir with
  | none => throw (.unknownOpcode ir)
  | some o => do
    let op1 ← s.fetchOperand (operandCount ir) 1
    let op2 ← s.fetchOperand (operandCount ir) 2
    pure (o.toInstr op1 op2)

/-- The bytes of memory from `pc` to the top of memory: what a decoder started at `pc` can read (spec R59). -/
def State.bytesFromPc (s : State) : List Byte := (List.range' s.pc (256 - s.pc)).map s.mem.read

/-- Where a word is placed so that the next fetch reads it: at `pc`, or at 0 if the longest instruction would not fit
between `pc` and the top of memory. -/
def State.fetchBase (s : State) : Nat := if s.pc + maxInstrBytes ≤ Config.memSize then s.pc else Config.loadBase

/-- The state with bytes placed where the next fetch reads, in a core that runs (log 17). -/
def State.placeAtFetch (s : State) (bytes : List Byte) : State :=
  { s with mem := s.mem.writeBytes s.fetchBase bytes, pc := s.fetchBase, run := .running, err := none }

end Sys2Proof.Machine
end

