-- ==== Sys2Proof/Machine/Step.lean ====
section
/-! DEFINITION. The step (spec R70): one whole instruction, a total deterministic function of the state. -/

namespace Sys2Proof.Machine

/-- One step of the engine (spec R70). In HALTED there is no step (R75; D23, log 9). An error raised while fetching enters
HALTED like any other (R126). -/
def step (s : State) : Host.Outcome State Fault Refusal :=
  match s.run with
  | .halted => .fault .halted
  | .running =>
    match fetchInstr s with
    | .error k => .next (s.raise k)
    | .ok i => exec i s

/-- The state with a table word stored where `step` fetches its next instruction (log 17). -/
def State.withFetchWord (s : State) (nbits w : Nat) : State := s.placeAtFetch (tableWordBytes nbits w)

end Sys2Proof.Machine
end

