-- ==== Sys2Proof/Machine/Listing.lean ====
section
/-! DEFINITION. The assembler notation of spec R60: the mnemonic in capitals, a space, the operands separated by a comma,
registers `R0` to `R7`, a literal as a decimal number. It is text for people; no step uses it. -/

namespace Sys2Proof.Machine

/-- The mnemonic of an instruction (spec R53, R60). -/
def mnemonic (i : Instr) : String :=
  match i with
  | .hlt => "HLT"
  | .ret => "RET"
  | .push _ => "PUSH"
  | .pop _ => "POP"
  | .prn _ => "PRN"
  | .call _ => "CALL"
  | .jmp _ => "JMP"
  | .jeq _ => "JEQ"
  | .jne _ => "JNE"
  | .ldi _ _ => "LDI"
  | .add _ _ => "ADD"
  | .mul _ _ => "MUL"
  | .cmp _ _ => "CMP"

/-- A register operand: `R` and its number; a byte above 7 names no register and is written as the bare number (R63's
`PRN 9`; log 21). -/
def registerText (b : Byte) : String :=
  if registerOperandOk b then "R" ++ toString b.toNat else toString b.toNat

/-- The operands of an instruction as text, in memory order (spec R60). -/
def operandTexts (i : Instr) : List String :=
  match i with
  | .hlt | .ret => []
  | .push r | .pop r | .prn r | .call r | .jmp r | .jeq r | .jne r => [registerText r]
  | .ldi r v => [registerText r, toString v.toNat]
  | .add a b | .mul a b | .cmp a b => [registerText a, registerText b]

/-- An instruction in the notation of spec R60, for example `LDI R0,8`. -/
def listing (i : Instr) : String :=
  match operandTexts i with
  | [] => mnemonic i
  | ops => mnemonic i ++ " " ++ String.intercalate "," ops

end Sys2Proof.Machine
end

