-- ==== Sys2Proof/Machine/HostInterface.lean ====
section
/-! DEFINITION. The interfaces between the core and its environment (spec/70_reset_and_hazards.md): reset, load, run, output
port, status. The environment has no other move (spec R148). -/

namespace Sys2Proof.Machine

/-- Reset, at any time: every piece of state takes its reset value (spec R140, R148). -/
def State.resetMove (_ : State) : State := State.reset

/-- Program load (spec R143): only in the reset state and at most 256 bytes, otherwise refused (D18, log 16). -/
def State.load (s : State) (bytes : List Byte) : Option State :=
  if s = State.reset ∧ bytes.length ≤ Config.memSize then
    some { s with mem := s.mem.writeBytes Config.loadBase bytes }
  else none

/-- Run for at most `fuel` steps: take steps until `run = HALTED` (spec R75, R144). -/
def runFor : Nat → State → State
  | 0, s => s
  | fuel + 1, s =>
    match step s with
    | .next t => runFor fuel t
    | .fault _ => s
    | .refused _ => s

/-- What the host can ask of the core (spec R148). -/
inductive HostMove where
  | reset
  | load (bytes : List Byte)
  | step
  deriving DecidableEq, Repr

/-- The state after a move of the host; no state where the core does not allow the move (spec R148). -/
def State.hostMove (s : State) (m : HostMove) : Option State :=
  match m with
  | .reset => some s.resetMove
  | .load bytes => s.load bytes
  | .step => nextState? (step s)

/-- The host's side of the output port: each value as its unsigned decimal numeral, without sign or padding, followed by a
line end (spec R81, R145; D16, log 15). -/
def hostText : List Byte → List Char
  | [] => []
  | v :: vs => Nat.toDigits 10 v.toNat ++ '\n' :: hostText vs

/-- The outcome of a run as the host learns it from `run` and `err` (spec R147). -/
inductive Status where
  | running
  | cleanHalt
  | failed (k : ErrorKind)
  deriving DecidableEq, Repr

/-- Status: HALTED without an error is the clean halt, HALTED with `err = K(info)` a run ended by the error (spec R147). -/
def State.status (s : State) : Status :=
  match s.run, s.err with
  | .running, _ => .running
  | .halted, none => .cleanHalt
  | .halted, some k => .failed k

end Sys2Proof.Machine
end

