-- ==== Sys2Proof/Safety.lean ====
section
/-! DEFINITION. What holds of every state the core can be in, and what a clean or a failed end of a run is. -/

namespace Sys2Proof.Machine

/-- What every state of the core meets (spec R10, R11, R14, R17, R19). -/
structure State.Inv (s : State) : Prop where
  /-- memory is in its canonical form, with addresses 0 to 255 only (R11) -/
  mem_wf : s.mem.wf
  /-- `pc` is in 0 to 256 (R14) -/
  pc_le : s.pc ≤ 256
  /-- no two of the three flags are set together (R17) -/
  flags_exclusive : ¬ (s.flagL ∧ s.flagG) ∧ ¬ (s.flagL ∧ s.flagE) ∧ ¬ (s.flagG ∧ s.flagE)
  /-- the error latch is set only together with HALTED (R19, R126) -/
  err_halted : s.err ≠ none → s.run = .halted

/-- A run that ended cleanly: HALTED without an error (spec R19, R75, R147). -/
abbrev State.EndedCleanly (s : State) : Prop := s.run = .halted ∧ s.err = none

/-- A run that ended in an error (spec R19, R147). -/
abbrev State.EndedInError (s : State) : Prop := s.run = .halted ∧ s.err ≠ none

/-- The states a core can be in: the state after reset, and every state the host's moves lead to from one (spec R148). -/
inductive State.Reachable : State → Prop where
  | reset : State.Reachable State.reset
  | move (s t : State) (m : HostMove) : State.Reachable s → s.hostMove m = some t → State.Reachable t

end Sys2Proof.Machine
end

