-- ==== Sys2Proof/Certificates/Slice0/Obligations.lean ====
section
/-! DEFINITION. What is claimed of the LS-8-style core: statements for the provers, taken from the numbered rules of spec/.
A clause that rests on one of the spec's own decisions (spec/92_eei_decisions.md, Dn) names it and the log entry. -/

namespace Sys2Proof.Statements

open Sys2Proof.Machine

/-- What `raise K` leaves of a state, in the words of spec R126: HALTED, the latch set, nothing else changed. -/
abbrev Raised (s : State) (k : ErrorKind) : State := { s with run := .halted, err := some k }

/-- The instruction at `pc`: what the decoder reads from the bytes of memory at `pc` and after it. -/
abbrev AtPc (s : State) (i : Instr) : Prop := ∃ rest, decode s.bytesFromPc = .ok (i, rest)

/-- Every byte of memory reads as before. -/
abbrev SameMemory (s t : State) : Prop := ∀ a : Nat, t.mem.read a = s.mem.read a

/-- Every register reads as before. -/
abbrev SameRegisters (s t : State) : Prop := ∀ r : Reg, t.reg r = s.reg r

/-- Every flag is as before. -/
abbrev SameFlags (s t : State) : Prop := t.flagL = s.flagL ∧ t.flagG = s.flagG ∧ t.flagE = s.flagE

/-- The engine state and the error latch are as before, or the whole next state is an error entry. -/
abbrev SameControlOrRaised (s t : State) : Prop := (t.run = s.run ∧ t.err = s.err) ∨ ∃ k, t = Raised s k

/-- Exactly one of the three flags is set. -/
abbrev ExactlyOneFlag (t : State) : Prop :=
  (t.flagL = true ∧ t.flagG = false ∧ t.flagE = false) ∨ (t.flagL = false ∧ t.flagG = true ∧ t.flagE = false) ∨
    (t.flagL = false ∧ t.flagG = false ∧ t.flagE = true)

/-- The step from a RUNNING state whose memory holds `byte a` in cell `a`, with every byte it fetches taken from `byte`: the
opcode at `pc`, then the operand bytes after it, then the instruction they make. -/
abbrev StepsOnBytes (byte : Nat → Byte) (t : State) : Prop :=
  (∀ a : Nat, t.mem.read a = byte a) ∧
  (255 < t.pc → step t = .next (Raised t (.outOfRangeAddress .fetch t.pc))) ∧
  (t.pc ≤ 255 → Opcode.ofByte? (byte t.pc) = none → step t = .next (Raised t (.unknownOpcode (byte t.pc)))) ∧
  (∀ (o : Opcode) (k : Nat), Opcode.ofByte? (byte t.pc) = some o → 1 ≤ k → k ≤ operandCount (byte t.pc) →
    t.pc + (k - 1) ≤ 255 → 255 < t.pc + k → step t = .next (Raised t (.outOfRangeAddress .fetch (t.pc + k : Nat)))) ∧
  (∀ o : Opcode, Opcode.ofByte? (byte t.pc) = some o → t.pc + operandCount (byte t.pc) ≤ 255 →
    step t = exec (o.toInstr (byte (t.pc + 1)) (byte (t.pc + 2))) t)

end Sys2Proof.Statements

open Sys2Proof Sys2Proof.Machine Sys2Proof.Statements

/-! ## Encoding -/

/-- R53: the 13 opcodes, each written out as the spec's bits, select their instruction with every operand byte at every
value; their lengths; and no other byte is an opcode. -/
def Obligations.OpcodeTableWordsDecode : Prop :=
  (∀ a b : Byte,
    decode [0b00000001#8] = .ok (.hlt, []) ∧ decode [0b00010001#8] = .ok (.ret, []) ∧
    decode [0b01000101#8, a] = .ok (.push a, []) ∧ decode [0b01000110#8, a] = .ok (.pop a, []) ∧
    decode [0b01000111#8, a] = .ok (.prn a, []) ∧ decode [0b01010000#8, a] = .ok (.call a, []) ∧
    decode [0b01010100#8, a] = .ok (.jmp a, []) ∧ decode [0b01010101#8, a] = .ok (.jeq a, []) ∧
    decode [0b01010110#8, a] = .ok (.jne a, []) ∧ decode [0b10000010#8, a, b] = .ok (.ldi a b, []) ∧
    decode [0b10100000#8, a, b] = .ok (.add a b, []) ∧ decode [0b10100010#8, a, b] = .ok (.mul a b, []) ∧
    decode [0b10100111#8, a, b] = .ok (.cmp a b, [])) ∧
  (∀ x ∈ [0x01#8, 0x11#8], instrLength x = 1) ∧
  (∀ x ∈ [0x45#8, 0x46#8, 0x47#8, 0x50#8, 0x54#8, 0x55#8, 0x56#8], instrLength x = 2) ∧
  (∀ x ∈ [0x82#8, 0xA0#8, 0xA2#8, 0xA7#8], instrLength x = 3) ∧
  (∀ x : Byte, (Opcode.ofByte? x).isSome = true ↔
    x ∈ [0x01#8, 0x11#8, 0x45#8, 0x46#8, 0x47#8, 0x50#8, 0x54#8, 0x55#8, 0x56#8, 0x82#8, 0xA0#8, 0xA2#8, 0xA7#8])

/-- R50: the top two bits of byte 0 are the number of operand bytes and one more is the length; every instruction's encoding
has that length; all eight bits of byte 0 select the instruction. -/
def Obligations.TopTwoBitsGiveOperandCountAndLength : Prop :=
  (∀ b : Byte, operandCount b = (b.extractLsb 7 6).toNat ∧ operandCount b ≤ 3 ∧ instrLength b = operandCount b + 1) ∧
  (∀ i : Instr, ∃ b0 ops, encode i = b0 :: ops ∧ ops.length = operandCount b0 ∧ (encode i).length = instrLength b0) ∧
  (∀ (b : Byte) (o : Opcode), Opcode.ofByte? b = some o ↔ b = o.byte)

/-- Decode and encode agree: a byte list decodes to an instruction and the bytes left over exactly when it is that instruction's
encoding followed by those bytes. So decoding an encoded instruction gives it back (no bit of an encoding is dropped), and each
word has one meaning. For ALL instructions, register operands above 7 included (30_encoding.md: a register operand is kept as
the raw byte). -/
def Obligations.DecodeAndEncodeAgree : Prop :=
  ∀ (bs : List Byte) (i : Instr) (rest : List Byte), decode bs = .ok (i, rest) ↔ bs = encode i ++ rest

/-- An opcode byte that is not one of the 13 ends the run with UnknownOpcode of that byte, decided on byte 0 alone: whatever
follows, even at address 255, and with no other effect. Rests on D11, D15, D24 (log 10, 13, 20) and D4, D9 (log 8). -/
def Obligations.UnknownOpcodeRaisesOnByteZeroAlone : Prop :=
  ∀ s : State, s.run = .running → s.pc ≤ 255 →
    s.mem.read s.pc ∉ [0x01#8, 0x11#8, 0x45#8, 0x46#8, 0x47#8, 0x50#8, 0x54#8, 0x55#8, 0x56#8, 0x82#8, 0xA0#8, 0xA2#8, 0xA7#8] →
    step s = .next (Raised s (.unknownOpcode (s.mem.read s.pc)))

/-! ## The step -/

/-- A step runs the decoded instruction: in RUNNING, when the bytes at `pc` decode to `i` (well formed or not), the step is
`exec i` on that same state; the step adds nothing around it, and the meaning alone moves `pc` (R70, R73). -/
def Obligations.StepRunsTheDecodedInstruction : Prop :=
  ∀ (s : State) (i : Instr), s.run = .running → AtPc s i → step s = exec i s

/-- No step in HALTED; then opcode fetch, unknown-opcode test, operand fetches in ascending order, execution (the pseudocode
of R70 to R72). No step in HALTED is D23 (log 9), the order with no operand fetch for an unknown opcode D11 (log 10), the
error past 255 D1, D3 (log 1, 5), what an error leaves D4, D9 (log 8). That `exec` answers a next state is
`StepAnswersExactlyWhenRunning`. -/
def Obligations.StepFetchesDecodesExecutes : Prop :=
  ∀ s : State,
    (s.run = .halted → step s = .fault .halted) ∧
    (s.run = .running →
      (255 < s.pc → step s = .next (Raised s (.outOfRangeAddress .fetch s.pc))) ∧
      (s.pc ≤ 255 → Opcode.ofByte? (s.mem.read s.pc) = none →
        step s = .next (Raised s (.unknownOpcode (s.mem.read s.pc)))) ∧
      (∀ (o : Opcode) (k : Nat), Opcode.ofByte? (s.mem.read s.pc) = some o → 1 ≤ k → k ≤ operandCount (s.mem.read s.pc) →
        s.pc + (k - 1) ≤ 255 → 255 < s.pc + k → step s = .next (Raised s (.outOfRangeAddress .fetch (s.pc + k : Nat)))) ∧
      (∀ o : Opcode, Opcode.ofByte? (s.mem.read s.pc) = some o → s.pc + operandCount (s.mem.read s.pc) ≤ 255 →
        step s = exec (o.toInstr (s.mem.read (s.pc + 1)) (s.mem.read (s.pc + 2))) s))

/-- A step answers a next state in every RUNNING state and in no HALTED one; the model refuses nothing. The absence of a step
in HALTED is D23 (log 9). -/
def Obligations.StepAnswersExactlyWhenRunning : Prop :=
  ∀ s : State, ((∃ t, step s = .next t) ↔ s.run = .running) ∧ (step s = .fault .halted ↔ s.run = .halted) ∧
    ∀ why, step s ≠ .refused why

/-- R18: RUNNING at reset; a step leaves RUNNING only by HLT or by a raise; in HALTED no move of the host but a reset leads
anywhere. -/
def Obligations.RunChangesOnlyByHltOrRaise : Prop :=
  State.reset.run = .running ∧
  (∀ s t : State, step s = .next t → s.run = .running ∧ (t.run = .halted ↔ (AtPc s .hlt ∨ ∃ k, t = Raised s k))) ∧
  (∀ s t : State, ∀ m : HostMove, s.run = .halted → s.hostMove m = some t → m = .reset ∧ t = State.reset)

/-- The run ended cleanly exactly when the last instruction was HLT. Rests on D9 (log 8). -/
def Obligations.CleanEndExactlyAfterHlt : Prop :=
  ∀ s t : State, s.err = none → step s = .next t → (t.EndedCleanly ↔ AtPc s .hlt)

/-- Errors are precise: a step that sets the error latch changes nothing but `run` and `err`. Rests on D4, D9 (log 8). -/
def Obligations.ErrorsArePrecise : Prop :=
  ∀ (s t : State) (k : ErrorKind), s.err = none → step s = .next t → t.err = some k → t = Raised s k

/-- The complete list of causes of OutOfRangeAddress, each with its value and the instruction that can have it. FETCH: the
opcode at 256, or an operand byte of a known opcode at 256, so never HLT or RET. Rests on D1, D3, D13, D20, D26 (log 1, 5) and
the operand names of D21 (log 8); the operand fetches on D11 (log 10), the untaken jumps on D12 (log 11), POP R7 on D19
(log 12). -/
def Obligations.OutOfRangeCausesAreComplete : Prop :=
  ∀ (s t : State) (what : AccessKind) (v : Int), s.pc ≤ 256 → s.err = none → step s = .next t →
    t.err = some (.outOfRangeAddress what v) →
    match what with
    | .fetch => v = 256 ∧ (s.pc = 256 ∨ ∃ (o : Opcode) (k : Nat), Opcode.ofByte? (s.mem.read s.pc) = some o ∧
        o ≠ .hlt ∧ o ≠ .ret ∧ 1 ≤ k ∧ k ≤ operandCount (s.mem.read s.pc) ∧ s.pc + k = 256)
    | .reg => 8 ≤ v ∧ v ≤ 255 ∧ ∃ i, AtPc s i ∧ (∃ b ∈ i.registerOperands, v = b.toNat) ∧
        (∀ b, i = .jeq b → s.flagE = true) ∧ (∀ b, i = .jne b → s.flagE = false)
    | .retaddr => v = 256 ∧ s.pc = 254 ∧ ∃ b, AtPc s (.call b)
    | .sp => (v = -1 ∧ s.sp = 0#8 ∧ ∃ b, AtPc s (.push b) ∨ AtPc s (.call b)) ∨
        (v = 256 ∧ ((s.sp = 255#8 ∧ AtPc s .ret) ∨ (∃ b, AtPc s (.pop b) ∧ b ≠ 7#8 ∧ s.sp = 255#8) ∨
          (AtPc s (.pop 7#8) ∧ s.mem.read s.sp.toNat = 255#8)))

/-- No program can raise UnsupportedALUOperation: only ADD, MUL and CMP invoke the ALU, each with its own operation. -/
def Obligations.UnsupportedAluOperationNeverRaised : Prop :=
  ∀ s t : State, s.err ≠ some .unsupportedALUOperation → step s = .next t → t.err ≠ some .unsupportedALUOperation

/-- A well-formed instruction never raises OutOfRangeAddress(REG, v): the check of every register operand up front covers the
check at the access (which D13 makes a raise, and which D12 leaves out of an untaken JEQ or JNE; log 5, 11). -/
def Obligations.WellFormedInstructionsNeverRaiseReg : Prop :=
  ∀ (i : Instr) (s t : State) (v : Int), i.wellFormed = true → s.err = none → exec i s = .next t →
    t.err ≠ some (.outOfRangeAddress .reg v)

/-- How each instruction leaves `pc`, when it does not raise (the raise keeps `pc`). The HLT clause rests on D8 (log 7), the
operand R7 of CALL on D19 (log 12). -/
def Obligations.ProgramCounterTable : Prop :=
  ∀ (i : Instr) (s t : State), exec i s = .next t → (∃ k, t = Raised s k) ∨
    match i with
    | .ldi _ _ | .add _ _ | .mul _ _ | .cmp _ _ => t.pc = s.pc + 3
    | .prn _ | .push _ | .pop _ => t.pc = s.pc + 2
    | .call b => ∃ r : Reg, b.toNat = r.val ∧ t.pc = ((s.setSp (s.sp - 1#8)).reg r).toNat
    | .ret => t.pc = (s.mem.read s.sp.toNat).toNat
    | .jmp b => ∃ r : Reg, b.toNat = r.val ∧ t.pc = (s.reg r).toNat
    | .jeq b => if s.flagE then ∃ r : Reg, b.toNat = r.val ∧ t.pc = (s.reg r).toNat else t.pc = s.pc + 2
    | .jne b => if s.flagE then t.pc = s.pc + 2 else ∃ r : Reg, b.toNat = r.val ∧ t.pc = (s.reg r).toNat
    | .hlt => t.pc = s.pc

/-! ## Invariants of the machine -/

/-- The state after reset meets the invariant. -/
def Obligations.ResetMeetsInvariant : Prop := State.reset.Inv

/-- Every step keeps the invariant: memory canonical and inside 0 to 255, `pc` in 0 to 256, no two flags set together, the
latch set only in HALTED. The range of `pc` is D3 (log 1), the latch D9 (log 8). -/
def Obligations.StepKeepsInvariant : Prop := ∀ s t : State, s.Inv → step s = .next t → t.Inv

/-- So every state that the host can bring the core to, by reset, load and steps, meets it. When a load is allowed is D18
(log 16), the range of `pc` D3 (log 1), the latch D9 (log 8). -/
def Obligations.ReachableStatesMeetInvariant : Prop := ∀ s : State, s.Reachable → s.Inv

/-- The reset values of every piece of state. `pc`, R7 and `run` are the document's; R0 to R6 rest on D5 (log 2), the flags
on D6 (log 3), memory on D7 (log 4), `err` on D9 (log 8), `out` on D16 (log 15). -/
def Obligations.ResetValues : Prop :=
  State.reset.pc = 0 ∧ State.reset.reg 7 = 0xF4#8 ∧ State.reset.run = .running ∧
  (∀ r : Reg, r.val < 7 → State.reset.reg r = 0#8) ∧
  State.reset.flagL = false ∧ State.reset.flagG = false ∧ State.reset.flagE = false ∧
  (∀ a : Nat, State.reset.mem.read a = 0#8) ∧ State.reset.err = none ∧ State.reset.out = []

/-- `out` is empty at reset; a step appends one value to it if the instruction is a PRN that does not raise, and otherwise
leaves it; no step reads it (R20); the host shows each value as an unsigned decimal line. The unsigned numeral without padding
is D16, the newline character as the line end is the model's own choice (log 15); a raise leaving `out` is D4 (log 8). -/
def Obligations.OutputIsAppendedByPrnOnly : Prop :=
  State.reset.out = [] ∧
  (∀ s t : State, step s = .next t →
    (∃ (b : Byte) (r : Reg), AtPc s (.prn b) ∧ b.toNat = r.val ∧ t.out = s.out ++ [s.reg r]) ∨
      (t.out = s.out ∧ ∀ b, AtPc s (.prn b) → ∃ k, t = Raised s k)) ∧
  (∀ (s t : State) (o : List Byte), step s = .next t →
    ∃ t', step { s with out := o } = .next t' ∧ { t' with out := t.out } = t) ∧
  (∀ (o : List Byte) (v : Byte), hostText (o ++ [v]) = hostText o ++ Nat.toDigits 10 v.toNat ++ ['\n'])

/-- The flags are written by CMP alone: every other instruction leaves all three; a CMP of two registers leaves exactly one of
them set; a CMP with an operand above 7 raises, which leaves them. The raise is D13 (log 5), that it leaves the flags D4
(log 8), which comparison sets which flag D2, D14 (log 6; `CmpComparesUnsigned` says it). -/
def Obligations.FlagsAreWrittenByCmpOnly : Prop :=
  ∀ (i : Instr) (s t : State), exec i s = .next t →
    ((∀ a b, i ≠ .cmp a b) → SameFlags s t) ∧
    (∀ a b, i = .cmp a b → (a.toNat ≤ 7 → b.toNat ≤ 7 → ExactlyOneFlag t) ∧
      (7 < a.toNat ∨ 7 < b.toNat → SameFlags s t ∧ ∃ k, t = Raised s k))

/-- No instruction reads L or G: a step from states that differ only there gives states that differ at most there. -/
def Obligations.LessAndGreaterAreNeverRead : Prop :=
  ∀ (s t : State) (l g : Bool), step s = .next t →
    ∃ t', step { s with flagL := l, flagG := g } = .next t' ∧ { t' with flagL := t.flagL, flagG := t.flagG } = t

/-! ## Memory -/

/-- R32: a write changes one cell and nothing else of the state; a read gives the last value written; a cell nothing has
written since reset reads 0 (the zero is D7, log 4). -/
def Obligations.MemoryReadAfterWrite : Prop :=
  (∀ (s : State) (a v : Byte), s.mem.wf →
    (s.memWrite a v).memRead a = v ∧ (∀ b : Byte, b ≠ a → (s.memWrite a v).memRead b = s.memRead b) ∧
    { s.memWrite a v with mem := s.mem } = s) ∧
  (∀ a : Byte, State.reset.memRead a = 0#8)

/-- Memory has one representation: canonical memories that read alike everywhere are the same data. -/
def Obligations.CanonicalMemoriesThatReadAlikeAreEqual : Prop :=
  ∀ m m' : Memory, m.wf → m'.wf → (∀ a : Nat, a < 256 → m.read a = m'.read a) → m = m'

/-! ## The instructions: result, completion, errors -/

/-- R80, LDI. The clause for an operand above 7 leans on D1, D4, D13 (log 5, 8). -/
def Obligations.LdiLoadsTheLiteral : Prop :=
  ∀ (s : State) (op1 v : Byte),
    decode [0x82#8, op1, v] = .ok (.ldi op1 v, []) ∧
    (∀ r : Reg, op1.toNat = r.val →
      exec (.ldi op1 v) s = .next { s with regs := s.regs.set r.val v, pc := s.pc + 3 }) ∧
    (7 < op1.toNat → exec (.ldi op1 v) s = .next (Raised s (.outOfRangeAddress .reg op1.toNat)))

/-- PRN (R81). The clause for an operand above 7 leans on D1, D4, D13 (log 5, 8). The last clause is the property that
`LDI r, v` followed by `PRN r` outputs exactly `v`, R7 included, and the text the host shows for it: the numeral is D16, the
newline character the model's own choice (log 15). -/
def Obligations.PrnOutputsTheRegister : Prop :=
  ∀ (s : State) (op1 : Byte),
    decode [0x47#8, op1] = .ok (.prn op1, []) ∧
    (∀ r : Reg, op1.toNat = r.val →
      exec (.prn op1) s = .next { s with out := s.out ++ [s.reg r], pc := s.pc + 2 }) ∧
    (7 < op1.toNat → exec (.prn op1) s = .next (Raised s (.outOfRangeAddress .reg op1.toNat))) ∧
    (∀ (r : Reg) (v : Byte), op1.toNat = r.val → ∃ t u, exec (.ldi op1 v) s = .next t ∧ exec (.prn op1) t = .next u ∧
      u.out = s.out ++ [v] ∧ hostText u.out = hostText s.out ++ Nat.toDigits 10 v.toNat ++ ['\n'])

/-- R87, ADD: the sum modulo 256 into the first register, no flag, nothing else. The clauses for an operand above 7 lean on
D1, D4, D13 (log 5, 8). -/
def Obligations.AddWrapsIntoTheFirstRegister : Prop :=
  ∀ (s : State) (op1 op2 : Byte),
    decode [0xA0#8, op1, op2] = .ok (.add op1 op2, []) ∧
    (∀ a b : Reg, op1.toNat = a.val → op2.toNat = b.val → ∃ v : Byte,
      v.toNat = ((s.reg a).toNat + (s.reg b).toNat) % 256 ∧
      exec (.add op1 op2) s = .next { s with regs := s.regs.set a.val v, pc := s.pc + 3 }) ∧
    (7 < op1.toNat → exec (.add op1 op2) s = .next (Raised s (.outOfRangeAddress .reg op1.toNat))) ∧
    (op1.toNat ≤ 7 → 7 < op2.toNat → exec (.add op1 op2) s = .next (Raised s (.outOfRangeAddress .reg op2.toNat)))

/-- R88, MUL: the product modulo 256 into the first register, no flag, nothing else. The clauses for an operand above 7 lean
on D1, D4, D13 (log 5, 8). -/
def Obligations.MulKeepsTheLowByte : Prop :=
  ∀ (s : State) (op1 op2 : Byte),
    decode [0xA2#8, op1, op2] = .ok (.mul op1 op2, []) ∧
    (∀ a b : Reg, op1.toNat = a.val → op2.toNat = b.val → ∃ v : Byte,
      v.toNat = ((s.reg a).toNat * (s.reg b).toNat) % 256 ∧
      exec (.mul op1 op2) s = .next { s with regs := s.regs.set a.val v, pc := s.pc + 3 }) ∧
    (7 < op1.toNat → exec (.mul op1 op2) s = .next (Raised s (.outOfRangeAddress .reg op1.toNat))) ∧
    (op1.toNat ≤ 7 → 7 < op2.toNat → exec (.mul op1 op2) s = .next (Raised s (.outOfRangeAddress .reg op2.toNat)))

/-- CMP: unsigned comparison, each flag on its own, exactly one set, nothing else written but `pc`. Unsigned is D2, the
direction of Less and Greater D14 (log 6), operands above 7 D1, D4, D13 (log 5, 8). -/
def Obligations.CmpComparesUnsigned : Prop :=
  ∀ (s : State) (op1 op2 : Byte),
    (∀ a b : Reg, op1.toNat = a.val → op2.toNat = b.val → ∃ t, exec (.cmp op1 op2) s = .next t ∧
      (t.flagL = true ↔ (s.reg a).toNat < (s.reg b).toNat) ∧ (t.flagG = true ↔ (s.reg b).toNat < (s.reg a).toNat) ∧
      (t.flagE = true ↔ s.reg a = s.reg b) ∧ ExactlyOneFlag t ∧
      t = { s with flagL := t.flagL, flagG := t.flagG, flagE := t.flagE, pc := s.pc + 3 }) ∧
    (7 < op1.toNat → exec (.cmp op1 op2) s = .next (Raised s (.outOfRangeAddress .reg op1.toNat))) ∧
    (op1.toNat ≤ 7 → 7 < op2.toNat → exec (.cmp op1 op2) s = .next (Raised s (.outOfRangeAddress .reg op2.toNat)))

/-- PUSH: SP - 1, and the named register, read after the decrement, stored in the cell at the new SP. SP = 0 raises. Rests on
D1, D13 (log 5), D4 (log 8), D19 for R7 (log 12), D10 for the order of the errors (log 10). -/
def Obligations.PushStoresBelowTheStackPointer : Prop :=
  ∀ (s : State) (op1 : Byte),
    (∀ r : Reg, op1.toNat = r.val → s.sp ≠ 0#8 → ∃ t, exec (.push op1) s = .next t ∧
      t.sp.toNat = s.sp.toNat - 1 ∧ (∀ q : Reg, q ≠ 7 → t.reg q = s.reg q) ∧ t.pc = s.pc + 2 ∧
      (s.mem.wf → t.mem.read (s.sp.toNat - 1) = if r = 7 then s.sp - 1#8 else s.reg r) ∧
      (∀ a : Nat, a ≠ s.sp.toNat - 1 → t.mem.read a = s.mem.read a) ∧
      SameFlags s t ∧ t.run = s.run ∧ t.err = s.err ∧ t.out = s.out) ∧
    (op1.toNat ≤ 7 → s.sp = 0#8 → exec (.push op1) s = .next (Raised s (.outOfRangeAddress .sp (-1)))) ∧
    (7 < op1.toNat → exec (.push op1) s = .next (Raised s (.outOfRangeAddress .reg op1.toNat)))

/-- POP: the byte at SP into the named register, then SP + 1; for R7 the popped byte plus 1. Memory keeps the byte. Rests on
D26, D13 (log 5), D4 (log 8), D19 for R7 (log 12), D10 (log 10). -/
def Obligations.PopLoadsFromTheStackPointer : Prop :=
  ∀ (s : State) (op1 : Byte),
    (∀ r : Reg, op1.toNat = r.val → r ≠ 7 → s.sp ≠ 255#8 → exec (.pop op1) s = .next { s with
      regs := (s.regs.set r.val (s.mem.read s.sp.toNat)).set 7 (s.sp + 1#8), pc := s.pc + 2 }) ∧
    (op1 = 7#8 → s.mem.read s.sp.toNat ≠ 255#8 → exec (.pop op1) s = .next { s with
      regs := s.regs.set 7 (s.mem.read s.sp.toNat + 1#8), pc := s.pc + 2 }) ∧
    (op1.toNat < 7 → s.sp = 255#8 → exec (.pop op1) s = .next (Raised s (.outOfRangeAddress .sp 256))) ∧
    (op1 = 7#8 → s.mem.read s.sp.toNat = 255#8 → exec (.pop op1) s = .next (Raised s (.outOfRangeAddress .sp 256))) ∧
    (7 < op1.toNat → exec (.pop op1) s = .next (Raised s (.outOfRangeAddress .reg op1.toNat)))

/-- CALL: the return address `pc + 2` in the cell below SP, SP - 1, `pc` at the value of the named register, read after the
decrement; the errors in their order. Rests on D1, D13, D20 (log 5), D4 (log 8), D19 for R7 (log 12), D10 (log 10). -/
def Obligations.CallStacksTheReturnAddress : Prop :=
  ∀ (s : State) (op1 : Byte),
    (∀ r : Reg, op1.toNat = r.val → s.pc ≤ 253 → s.sp ≠ 0#8 → ∃ t, exec (.call op1) s = .next t ∧
      t.sp.toNat = s.sp.toNat - 1 ∧ (∀ q : Reg, q ≠ 7 → t.reg q = s.reg q) ∧
      t.pc = (if r = 7 then s.sp - 1#8 else s.reg r).toNat ∧
      (s.mem.wf → (t.mem.read (s.sp.toNat - 1)).toNat = s.pc + 2) ∧
      (∀ a : Nat, a ≠ s.sp.toNat - 1 → t.mem.read a = s.mem.read a) ∧
      SameFlags s t ∧ t.run = s.run ∧ t.err = s.err ∧ t.out = s.out) ∧
    (op1.toNat ≤ 7 → s.pc ≤ 253 → s.sp = 0#8 → exec (.call op1) s = .next (Raised s (.outOfRangeAddress .sp (-1)))) ∧
    (op1.toNat ≤ 7 → s.pc = 254 → exec (.call op1) s = .next (Raised s (.outOfRangeAddress .retaddr 256))) ∧
    (7 < op1.toNat → exec (.call op1) s = .next (Raised s (.outOfRangeAddress .reg op1.toNat)))

/-- RET: `pc` takes the byte at SP, SP + 1, nothing else. SP = 255 raises (D26, log 5, and D4, log 8). -/
def Obligations.RetPopsTheProgramCounter : Prop :=
  ∀ s : State,
    (s.sp ≠ 255#8 → exec .ret s =
      .next { s with regs := s.regs.set 7 (s.sp + 1#8), pc := (s.mem.read s.sp.toNat).toNat }) ∧
    (s.sp = 255#8 → exec .ret s = .next (Raised s (.outOfRangeAddress .sp 256)))

/-- R102, JMP: `pc` takes the register's value, any address 0 to 255; nothing else changes. The clause for an operand above 7
leans on D1, D4, D13 (log 5, 8). -/
def Obligations.JmpRedirectsToTheRegister : Prop :=
  ∀ (s : State) (op1 : Byte),
    decode [0x54#8, op1] = .ok (.jmp op1, []) ∧
    (∀ r : Reg, op1.toNat = r.val → exec (.jmp op1) s = .next { s with pc := (s.reg r).toNat }) ∧
    (7 < op1.toNat → exec (.jmp op1) s = .next (Raised s (.outOfRangeAddress .reg op1.toNat)))

/-- JEQ: taken exactly when E = 1; not taken, it does not access the register, so even an operand above 7 falls through
(D12, log 11); taken, such an operand raises (D13, log 5, and D4, log 8). -/
def Obligations.JeqJumpsWhenEqual : Prop :=
  ∀ (s : State) (op1 : Byte),
    (∀ r : Reg, op1.toNat = r.val → s.flagE = true → exec (.jeq op1) s = .next { s with pc := (s.reg r).toNat }) ∧
    (s.flagE = false → exec (.jeq op1) s = .next { s with pc := s.pc + 2 }) ∧
    (7 < op1.toNat → s.flagE = true → exec (.jeq op1) s = .next (Raised s (.outOfRangeAddress .reg op1.toNat)))

/-- JNE: taken exactly when E = 0, whatever L and G are; not taken, no access to the register (D12, log 11); taken, an operand
above 7 raises (D13, log 5, and D4, log 8). -/
def Obligations.JneJumpsWhenNotEqual : Prop :=
  ∀ (s : State) (op1 : Byte),
    (∀ r : Reg, op1.toNat = r.val → s.flagE = false → exec (.jne op1) s = .next { s with pc := (s.reg r).toNat }) ∧
    (s.flagE = true → exec (.jne op1) s = .next { s with pc := s.pc + 2 }) ∧
    (7 < op1.toNat → s.flagE = false → exec (.jne op1) s = .next (Raised s (.outOfRangeAddress .reg op1.toNat)))

/-- HLT: HALTED and nothing else, `pc` included (D8, log 7). -/
def Obligations.HltOnlyHalts : Prop := ∀ s : State, exec .hlt s = .next { s with run := .halted }

/-- The ALU as a unit, its SUB included: ADD, SUB and MUL modulo 256 into the first register and nothing else; CMP writes the
flags and nothing else; every byte outside the 13 opcodes is unknown whatever follows it, 0xA1 among them, and the 13 decode to
ADD, MUL, CMP and ten instructions without the ALU (`OpcodeTableWordsDecode`), so no byte value selects SUB. Unsigned CMP is
D2, D14 (log 6), SUB without an instruction D15 (log 13, 20). -/
def Obligations.AluOperations : Prop :=
  (∀ (s : State) (a b : Reg),
    (((alu .add a b s).reg a).toNat = ((s.reg a).toNat + (s.reg b).toNat) % 256) ∧
    ((((alu .sub a b s).reg a).toNat : Int) = ((s.reg a).toNat - (s.reg b).toNat : Int) % 256) ∧
    (((alu .mul a b s).reg a).toNat = ((s.reg a).toNat * (s.reg b).toNat) % 256) ∧
    (∀ op, op ≠ .cmp → (∀ r, r ≠ a → (alu op a b s).reg r = s.reg r) ∧ { alu op a b s with regs := s.regs } = s) ∧
    ((alu .cmp a b s).flagL = decide ((s.reg a).toNat < (s.reg b).toNat)) ∧
    ((alu .cmp a b s).flagG = decide ((s.reg b).toNat < (s.reg a).toNat)) ∧
    ((alu .cmp a b s).flagE = decide (s.reg a = s.reg b)) ∧
    ({ alu .cmp a b s with flagL := s.flagL, flagG := s.flagG, flagE := s.flagE } = s)) ∧
  (∀ x : Byte, x ∉ [0x01#8, 0x11#8, 0x45#8, 0x46#8, 0x47#8, 0x50#8, 0x54#8, 0x55#8, 0x56#8, 0x82#8, 0xA0#8, 0xA2#8, 0xA7#8] →
    ∀ rest, decode (x :: rest) = .error (.unknownOpcode x)) ∧
  (∀ rest, decode (0xA1#8 :: rest) = .error (.unknownOpcode 0xA1#8))

/-! ## Frames -/

/-- LDI, ADD, MUL: only the first operand's register and `pc` can change, and an error entry. -/
def Obligations.RegisterFormsFrame : Prop :=
  ∀ (i : Instr) (op1 op2 : Byte) (s t : State), i = .ldi op1 op2 ∨ i = .add op1 op2 ∨ i = .mul op1 op2 →
    exec i s = .next t →
    (∀ r : Reg, r.val ≠ op1.toNat → t.reg r = s.reg r) ∧ SameFlags s t ∧ SameMemory s t ∧ t.out = s.out ∧
    SameControlOrRaised s t

/-- CMP, PRN, JMP, JEQ, JNE, HLT: no register and no byte of memory changes; only CMP touches a flag, only PRN `out`; only
HLT changes `run` without an error. -/
def Obligations.FormsWithoutDestinationFrame : Prop :=
  ∀ (i : Instr) (op1 op2 : Byte) (s t : State),
    i = .cmp op1 op2 ∨ i = .prn op1 ∨ i = .jmp op1 ∨ i = .jeq op1 ∨ i = .jne op1 ∨ i = .hlt →
    exec i s = .next t →
    SameRegisters s t ∧ SameMemory s t ∧ (i ≠ .cmp op1 op2 → SameFlags s t) ∧ (i ≠ .prn op1 → t.out = s.out) ∧
    (i ≠ .hlt → SameControlOrRaised s t) ∧ (i = .hlt → t.err = s.err)

/-- POP and RET: only R7, POP's destination register and `pc` can change, and an error entry; memory keeps every byte. -/
def Obligations.StackReadFrame : Prop :=
  ∀ (op1 : Byte) (s t : State),
    (exec (.pop op1) s = .next t →
      (∀ r : Reg, r ≠ 7 → r.val ≠ op1.toNat → t.reg r = s.reg r) ∧ SameFlags s t ∧ SameMemory s t ∧ t.out = s.out ∧
      SameControlOrRaised s t) ∧
    (exec .ret s = .next t →
      (∀ r : Reg, r ≠ 7 → t.reg r = s.reg r) ∧ SameFlags s t ∧ SameMemory s t ∧ t.out = s.out ∧ SameControlOrRaised s t)

/-- PUSH and CALL: only R7, the cell at the decremented SP (the state `decSp` gives, as in the meaning) and `pc` can change,
and an error entry. -/
def Obligations.StackWriteFrame : Prop :=
  ∀ (i : Instr) (op1 : Byte) (s t : State), i = .push op1 ∨ i = .call op1 → exec i s = .next t →
    (∀ r : Reg, r ≠ 7 → t.reg r = s.reg r) ∧ SameFlags s t ∧ t.out = s.out ∧ SameControlOrRaised s t ∧
    (∀ b : Nat, (∀ s1, s.decSp = .ok s1 → b ≠ s1.sp.toNat) → t.mem.read b = s.mem.read b)

/-! ## The stack, calls and self-modification -/

/-- The stack discipline (R97): a push goes one address lower, CALL too; a pop one higher, RET too; PUSH then POP of the same
register restores every register, R7 included; PUSH r then POP q copies and leaves SP and the byte below it. The copy is the
spec's own inference (R97, marked derived), R7 rests on D19 (log 12), the premises on SP and `pc` on D1, D20, D26 (log 5). -/
def Obligations.StackDiscipline : Prop :=
  ∀ s : State, s.mem.wf →
    (∀ (op1 : Byte) (r : Reg), op1.toNat = r.val → s.sp ≠ 0#8 → ∃ t, exec (.push op1) s = .next t ∧
      t.sp.toNat + 1 = s.sp.toNat ∧
      (∃ u, exec (.pop op1) t = .next u ∧ SameRegisters s u) ∧
      (∀ (op2 : Byte) (q : Reg), op2.toNat = q.val → q ≠ 7 → r ≠ 7 → ∃ u, exec (.pop op2) t = .next u ∧
        u.reg q = s.reg r ∧ u.sp = s.sp ∧ u.mem.read (s.sp.toNat - 1) = s.reg r)) ∧
    (∀ (op1 : Byte) (r : Reg), op1.toNat = r.val → s.sp ≠ 0#8 → s.pc ≤ 253 → ∃ t, exec (.call op1) s = .next t ∧
      t.sp.toNat + 1 = s.sp.toNat ∧ ∀ a : Nat, a ≠ t.sp.toNat → t.mem.read a = s.mem.read a) ∧
    (∀ (op1 : Byte) (r : Reg), op1.toNat = r.val → r ≠ 7 → s.sp ≠ 255#8 → ∃ t, exec (.pop op1) s = .next t ∧
      t.sp.toNat = s.sp.toNat + 1) ∧
    (s.sp ≠ 255#8 → ∃ t, exec .ret s = .next t ∧ t.sp.toNat = s.sp.toNat + 1)

/-- CALL then, once the subroutine has left SP and the stacked byte as it found them, RET: `pc` is the call site plus 2 (the
document's "+ 3" is conflict C2) and SP is back. The premise `pc ≤ 253` is D20 (log 5). -/
def Obligations.CallThenRetReturnsPastTheCall : Prop :=
  ∀ (s t u : State) (op1 : Byte), s.mem.wf → s.pc ≤ 253 → s.sp ≠ 0#8 → op1.toNat ≤ 7 → exec (.call op1) s = .next t →
    u.sp = t.sp → u.mem.read t.sp.toNat = t.mem.read t.sp.toNat →
    ∃ v, exec .ret u = .next v ∧ v.pc = s.pc + 2 ∧ v.sp = s.sp

/-- A store is seen by the very next fetch (R42): after a PUSH of any register or a CALL, the next step fetches its opcode and
its operands from memory as it was with the stored byte in the cell below the old SP, wherever that cell is, and executes the
instruction they make, whichever of the 13 it is, or raises. What `exec` of it does is in that instruction's own statement.
The byte PUSH R7 stores and the target of CALL R7 are D19 (log 12), `pc ≤ 253` and SP not 0 are D20, D1 (log 5), the error past
255 D1, D3 (log 1, 5), the order of the fetches D11 (log 10), what an error leaves D4, D9 (log 8). -/
def Obligations.NextFetchSeesThePushedByte : Prop :=
  ∀ (s : State) (i : Instr) (op1 v : Byte) (r : Reg), s.mem.wf → s.run = .running → op1.toNat = r.val → s.sp ≠ 0#8 →
    (i = .push op1 ∧ v = (if r = 7 then s.sp - 1#8 else s.reg r)) ∨
      (i = .call op1 ∧ s.pc ≤ 253 ∧ v.toNat = s.pc + 2) →
    ∃ t, exec i s = .next t ∧ StepsOnBytes (fun a => if a + 1 = s.sp.toNat then v else s.mem.read a) t

/-- `LDI r, v` followed immediately by `PRN r`, run from memory by two steps, outputs exactly `v`, for every register. -/
def Obligations.LdiThenPrnOutputsTheValue : Prop :=
  ∀ (s : State) (op1 v : Byte), s.run = .running → op1.toNat ≤ 7 → s.pc + 5 ≤ 256 →
    s.mem.read s.pc = 0x82#8 → s.mem.read (s.pc + 1) = op1 → s.mem.read (s.pc + 2) = v →
    s.mem.read (s.pc + 3) = 0x47#8 → s.mem.read (s.pc + 4) = op1 →
    ∃ t u, step s = .next t ∧ step t = .next u ∧ u.out = s.out ++ [v] ∧ u.pc = s.pc + 5 ∧ u.run = .running

/-! ## The host's interfaces -/

/-- Load copies the image to address 0 in file order and changes nothing else; every other cell keeps reading 0. It is refused
out of the reset state and for more than 256 bytes. Rests on D18 (log 16) and D7 for the 0 (log 4). -/
def Obligations.LoadCopiesTheImageOrIsRefused : Prop :=
  (∀ bytes : List Byte, bytes.length ≤ 256 → ∃ t, State.reset.load bytes = some t ∧ t = { State.reset with mem := t.mem } ∧
    t.mem.wf ∧ ∀ a : Nat, t.mem.read a = if h : a < bytes.length then bytes[a] else 0#8) ∧
  (∀ (s : State) (bytes : List Byte), s ≠ State.reset ∨ 256 < bytes.length → s.load bytes = none)

/-- Running: no step is taken in HALTED, and running for `j + k` steps is running for `j` and then for `k`; so the state a run
ends in does not change with more fuel. -/
def Obligations.RunStopsAtTheFirstHaltedState : Prop :=
  (∀ (s : State) (k : Nat), s.run = .halted → runFor k s = s) ∧
  (∀ (s : State) (j k : Nat), runFor (j + k) s = runFor k (runFor j s)) ∧
  (∀ (s : State) (j k : Nat), (runFor j s).run = .halted → runFor (j + k) s = runFor j s)

/-- R147: the status the host reads from `run` and `err`; HLT alone ends a run cleanly. -/
def Obligations.StatusTellsHowTheRunEnded : Prop :=
  (∀ s : State, (s.status = .cleanHalt ↔ s.run = .halted ∧ s.err = none) ∧
    (∀ k, s.status = .failed k ↔ s.run = .halted ∧ s.err = some k) ∧ (s.status = .running ↔ s.run = .running)) ∧
  (∀ s t : State, s.err = none → step s = .next t → (t.status = .cleanHalt ↔ AtPc s .hlt))

/-- A table word placed by `withFetchWord` is what the very next step runs, at every state with a canonical memory. The
placing itself is the model's own (log 17). -/
def Obligations.PlacedWordIsRunByTheNextStep : Prop :=
  ∀ (s : State) (nbits w : Nat) (i : Instr), s.mem.wf → decodeTableWord nbits w = some i →
    step (s.withFetchWord nbits w) = exec i (s.withFetchWord nbits w) ∧ (s.withFetchWord nbits w).mem.wf
end

