-- ==== Sys2Proof/Laws/Decode.lean ====
section
/-! SUPPORT. The opcode table is read one way only: no two rows share a byte, and the byte decides the row. -/

namespace Sys2Proof

/-- No two rows of the opcode table have the same byte (spec R53). -/
theorem Opcode.all_bytes_distinct : Opcode.all.Pairwise fun o p => o.byte ≠ p.byte := by decide

@[simp] theorem Opcode.ofByte?_byte (o : Opcode) : Opcode.ofByte? o.byte = some o := by cases o <;> rfl

/-- A byte that selects a row is that row's opcode (spec R53, R73). -/
theorem Opcode.byte_of_ofByte? {b : Byte} {o : Opcode} (h : Opcode.ofByte? b = some o) : b = o.byte := by
  have := List.find?_some h
  simpa using (beq_iff_eq.1 this).symm

@[simp] theorem Opcode.opcode_toInstr (o : Opcode) (op1 op2 : Byte) : (o.toInstr op1 op2).opcode = o := by
  cases o <;> rfl

/-- `b div 64` is the number made of the top two bits (spec R5, R50). -/
theorem operandCount_eq_bits (b : Byte) : operandCount b = (b.extractLsb 7 6).toNat := by
  simp only [operandCount, BitVec.extractLsb_toNat, Nat.shiftRight_eq_div_pow]
  have := b.isLt
  omega

/-- Every defined opcode has at most two operand bytes (spec R53, R58). -/
theorem Opcode.operandCount_le (o : Opcode) : operandCount o.byte ≤ 2 := by cases o <;> decide

end Sys2Proof
end

