-- ==== Sys2Proof/Laws/Memory.lean ====
section
/-! SUPPORT. The laws of memory: every operation keeps the canonical form, a read after a write, equal reads mean equal
memories. -/

namespace Sys2Proof.Machine.Memory

@[simp] theorem wf_nil : Memory.wf [] := ⟨.nil, fun _ h => absurd h List.not_mem_nil⟩

@[simp] theorem read_nil (a : Nat) : Memory.read [] a = Config.memReset := rfl

theorem wf_tail {c : Host.Cell} {m : Memory} (h : Memory.wf (c :: m)) : Memory.wf m :=
  ⟨(List.pairwise_cons.1 h.1).2, fun d hd => h.2 d (List.mem_cons_of_mem c hd)⟩

/-- A cell that no entry lists reads as its reset value. -/
theorem read_of_not_listed (m : Memory) (a : Nat) (h : ∀ c ∈ m, c.1 ≠ a) : m.read a = Config.memReset := by
  induction m with
  | nil => rfl
  | cons c m ih =>
    have hc := h c (by simp)
    rw [Memory.read, if_neg hc]
    exact ih fun d hd => h d (by simp [hd])

/-- Below the first entry of a canonical memory every cell reads as its reset value. -/
theorem read_below (c : Host.Cell) (m : Memory) (h : Memory.wf (c :: m)) (a : Nat) (ha : a < c.1) :
    Memory.read (c :: m) a = Config.memReset := by
  apply read_of_not_listed
  intro d hd
  rcases List.mem_cons.1 hd with rfl | hd
  · omega
  · have := (List.pairwise_cons.1 h.1).1 d hd
    omega

/-- The addresses a write can leave in the list. -/
theorem mem_write {m : Memory} {a : Nat} {v : Byte} {c : Host.Cell} (h : c ∈ m.write a v) :
    c ∈ m ∨ (c = (a, v) ∧ v ≠ Config.memReset) := by
  induction m with
  | nil => rw [Memory.write] at h; split_ifs at h with hv <;> simp_all
  | cons d m ih =>
    rw [Memory.write] at h
    split_ifs at h with h1 h2 h3 h4 <;> simp only [List.mem_cons] at h ⊢
    · exact .inl h
    · rcases h with h | h
      · exact .inr ⟨h, h2⟩
      · exact .inl h
    · exact .inl (.inr h)
    · rcases h with h | h
      · exact .inr ⟨h, h4⟩
      · exact .inl (.inr h)
    · rcases h with h | h
      · exact .inl (.inl h)
      · rcases ih h with h | h
        · exact .inl (.inr h)
        · exact .inr h

/-- A write inside the address space keeps the canonical form. -/
theorem write_wf (m : Memory) (h : m.wf) (a : Nat) (ha : a < Config.memSize) (v : Byte) : (m.write a v).wf := by
  refine ⟨?_, fun c hc => ?_⟩
  · induction m with
    | nil => rw [Memory.write]; split_ifs <;> simp
    | cons d m ih =>
      have hd := List.pairwise_cons.1 h.1
      have hm := ih (wf_tail h)
      rw [Memory.write]
      split_ifs with h1 h2 h3 h4
      · exact h.1
      · refine List.pairwise_cons.2 ⟨fun e he => ?_, h.1⟩
        rcases List.mem_cons.1 he with rfl | he
        · exact h1
        · exact lt_trans h1 (hd.1 e he)
      · exact hd.2
      · exact List.pairwise_cons.2 ⟨fun e he => by simpa [h3] using hd.1 e he, hd.2⟩
      · refine List.pairwise_cons.2 ⟨fun e he => ?_, hm⟩
        rcases mem_write he with he | ⟨rfl, _⟩
        · exact hd.1 e he
        · simp only; omega
  · rcases mem_write hc with hc | ⟨rfl, hv⟩
    · exact h.2 c hc
    · exact ⟨ha, hv⟩

/-- A read after a write: the written value at that address, the old value everywhere else (spec R32). -/
theorem read_write (m : Memory) (h : m.wf) (a b : Nat) (v : Byte) :
    (m.write a v).read b = if b = a then v else m.read b := by
  induction m with
  | nil =>
    rw [Memory.write]
    split_ifs with hv hb hb <;> simp_all [Memory.read]
    intro hab
    exact absurd hab.symm hb
  | cons d m ih =>
    have hbelow := read_below d m h
    have htail : b = d.1 → Memory.read m b = Config.memReset := fun hb =>
      read_of_not_listed m b fun e he => by
        have : d.1 < e.1 := (List.pairwise_cons.1 h.1).1 e he
        omega
    have ihb := ih (wf_tail h)
    by_cases h1 : a < d.1
    · by_cases hv : v = Config.memReset
      · simp only [Memory.write, if_pos h1, if_pos hv]
        split_ifs with hb
        · rw [hb, hbelow a h1, hv]
        · rfl
      · simp only [Memory.write, if_pos h1, if_neg hv]
        rw [Memory.read]
        simp only [eq_comm]
    · by_cases h2 : a = d.1
      · by_cases hv : v = Config.memReset
        · simp only [Memory.write, if_neg h1, if_pos h2, if_pos hv]
          split_ifs with hb
          · rw [htail (by omega), hv]
          · rw [Memory.read, if_neg (by omega)]
        · simp only [Memory.write, if_neg h1, if_pos h2, if_neg hv, Memory.read]
          split_ifs <;> first | rfl | omega
      · simp only [Memory.write, if_neg h1, if_neg h2, Memory.read, ihb]
        split_ifs <;> first | rfl | omega

/-- Writing bytes inside the address space keeps the canonical form. -/
theorem writeBytes_wf (bs : List Byte) (m : Memory) (h : m.wf) (a : Nat) (ha : a + bs.length ≤ Config.memSize) :
    (m.writeBytes a bs).wf := by
  induction bs generalizing m a with
  | nil => exact h
  | cons b bs ih =>
    rw [List.length_cons] at ha
    exact ih (m.write a b) (write_wf m h a (by omega) b) (a + 1) (by omega)

end Sys2Proof.Machine.Memory
end

