-- ==== Sys2Proof/Laws/State.lean ====
section
/-! SUPPORT. One lemma per field per update of State, so that no later proof unfolds a record update; and what reading a
register gives after writing one. -/

namespace Sys2Proof.Machine.State

variable (s : State)

@[simp] theorem setReg_mem (r : Reg) (v : Byte) : (s.setReg r v).mem = s.mem := rfl
@[simp] theorem setReg_regs (r : Reg) (v : Byte) : (s.setReg r v).regs = s.regs.set r.val v := rfl
@[simp] theorem setReg_pc (r : Reg) (v : Byte) : (s.setReg r v).pc = s.pc := rfl
@[simp] theorem setReg_flagL (r : Reg) (v : Byte) : (s.setReg r v).flagL = s.flagL := rfl
@[simp] theorem setReg_flagG (r : Reg) (v : Byte) : (s.setReg r v).flagG = s.flagG := rfl
@[simp] theorem setReg_flagE (r : Reg) (v : Byte) : (s.setReg r v).flagE = s.flagE := rfl
@[simp] theorem setReg_run (r : Reg) (v : Byte) : (s.setReg r v).run = s.run := rfl
@[simp] theorem setReg_err (r : Reg) (v : Byte) : (s.setReg r v).err = s.err := rfl
@[simp] theorem setReg_out (r : Reg) (v : Byte) : (s.setReg r v).out = s.out := rfl

@[simp] theorem setSp_mem (v : Byte) : (s.setSp v).mem = s.mem := rfl
@[simp] theorem setSp_regs (v : Byte) : (s.setSp v).regs = s.regs.set 7 v := rfl
@[simp] theorem setSp_pc (v : Byte) : (s.setSp v).pc = s.pc := rfl
@[simp] theorem setSp_flagL (v : Byte) : (s.setSp v).flagL = s.flagL := rfl
@[simp] theorem setSp_flagG (v : Byte) : (s.setSp v).flagG = s.flagG := rfl
@[simp] theorem setSp_flagE (v : Byte) : (s.setSp v).flagE = s.flagE := rfl
@[simp] theorem setSp_run (v : Byte) : (s.setSp v).run = s.run := rfl
@[simp] theorem setSp_err (v : Byte) : (s.setSp v).err = s.err := rfl
@[simp] theorem setSp_out (v : Byte) : (s.setSp v).out = s.out := rfl

@[simp] theorem setPc_mem (n : Nat) : (s.setPc n).mem = s.mem := rfl
@[simp] theorem setPc_regs (n : Nat) : (s.setPc n).regs = s.regs := rfl
@[simp] theorem setPc_pc (n : Nat) : (s.setPc n).pc = n := rfl
@[simp] theorem setPc_flagL (n : Nat) : (s.setPc n).flagL = s.flagL := rfl
@[simp] theorem setPc_flagG (n : Nat) : (s.setPc n).flagG = s.flagG := rfl
@[simp] theorem setPc_flagE (n : Nat) : (s.setPc n).flagE = s.flagE := rfl
@[simp] theorem setPc_run (n : Nat) : (s.setPc n).run = s.run := rfl
@[simp] theorem setPc_err (n : Nat) : (s.setPc n).err = s.err := rfl
@[simp] theorem setPc_out (n : Nat) : (s.setPc n).out = s.out := rfl

@[simp] theorem advance_mem (n : Nat) : (s.advance n).mem = s.mem := rfl
@[simp] theorem advance_regs (n : Nat) : (s.advance n).regs = s.regs := rfl
@[simp] theorem advance_pc (n : Nat) : (s.advance n).pc = s.pc + n := rfl
@[simp] theorem advance_flagL (n : Nat) : (s.advance n).flagL = s.flagL := rfl
@[simp] theorem advance_flagG (n : Nat) : (s.advance n).flagG = s.flagG := rfl
@[simp] theorem advance_flagE (n : Nat) : (s.advance n).flagE = s.flagE := rfl
@[simp] theorem advance_run (n : Nat) : (s.advance n).run = s.run := rfl
@[simp] theorem advance_err (n : Nat) : (s.advance n).err = s.err := rfl
@[simp] theorem advance_out (n : Nat) : (s.advance n).out = s.out := rfl

@[simp] theorem redirect_mem (v : Byte) : (s.redirect v).mem = s.mem := rfl
@[simp] theorem redirect_regs (v : Byte) : (s.redirect v).regs = s.regs := rfl
@[simp] theorem redirect_pc (v : Byte) : (s.redirect v).pc = v.toNat := rfl
@[simp] theorem redirect_flagL (v : Byte) : (s.redirect v).flagL = s.flagL := rfl
@[simp] theorem redirect_flagG (v : Byte) : (s.redirect v).flagG = s.flagG := rfl
@[simp] theorem redirect_flagE (v : Byte) : (s.redirect v).flagE = s.flagE := rfl
@[simp] theorem redirect_run (v : Byte) : (s.redirect v).run = s.run := rfl
@[simp] theorem redirect_err (v : Byte) : (s.redirect v).err = s.err := rfl
@[simp] theorem redirect_out (v : Byte) : (s.redirect v).out = s.out := rfl

@[simp] theorem memWrite_mem (a v : Byte) : (s.memWrite a v).mem = s.mem.write a.toNat v := rfl
@[simp] theorem memWrite_regs (a v : Byte) : (s.memWrite a v).regs = s.regs := rfl
@[simp] theorem memWrite_pc (a v : Byte) : (s.memWrite a v).pc = s.pc := rfl
@[simp] theorem memWrite_flagL (a v : Byte) : (s.memWrite a v).flagL = s.flagL := rfl
@[simp] theorem memWrite_flagG (a v : Byte) : (s.memWrite a v).flagG = s.flagG := rfl
@[simp] theorem memWrite_flagE (a v : Byte) : (s.memWrite a v).flagE = s.flagE := rfl
@[simp] theorem memWrite_run (a v : Byte) : (s.memWrite a v).run = s.run := rfl
@[simp] theorem memWrite_err (a v : Byte) : (s.memWrite a v).err = s.err := rfl
@[simp] theorem memWrite_out (a v : Byte) : (s.memWrite a v).out = s.out := rfl

@[simp] theorem output_mem (v : Byte) : (s.output v).mem = s.mem := rfl
@[simp] theorem output_regs (v : Byte) : (s.output v).regs = s.regs := rfl
@[simp] theorem output_pc (v : Byte) : (s.output v).pc = s.pc := rfl
@[simp] theorem output_flagL (v : Byte) : (s.output v).flagL = s.flagL := rfl
@[simp] theorem output_flagG (v : Byte) : (s.output v).flagG = s.flagG := rfl
@[simp] theorem output_flagE (v : Byte) : (s.output v).flagE = s.flagE := rfl
@[simp] theorem output_run (v : Byte) : (s.output v).run = s.run := rfl
@[simp] theorem output_err (v : Byte) : (s.output v).err = s.err := rfl
@[simp] theorem output_out (v : Byte) : (s.output v).out = s.out ++ [v] := rfl

@[simp] theorem raise_mem (k : ErrorKind) : (s.raise k).mem = s.mem := rfl
@[simp] theorem raise_regs (k : ErrorKind) : (s.raise k).regs = s.regs := rfl
@[simp] theorem raise_pc (k : ErrorKind) : (s.raise k).pc = s.pc := rfl
@[simp] theorem raise_flagL (k : ErrorKind) : (s.raise k).flagL = s.flagL := rfl
@[simp] theorem raise_flagG (k : ErrorKind) : (s.raise k).flagG = s.flagG := rfl
@[simp] theorem raise_flagE (k : ErrorKind) : (s.raise k).flagE = s.flagE := rfl
@[simp] theorem raise_run (k : ErrorKind) : (s.raise k).run = .halted := rfl
@[simp] theorem raise_err (k : ErrorKind) : (s.raise k).err = some k := rfl
@[simp] theorem raise_out (k : ErrorKind) : (s.raise k).out = s.out := rfl

@[simp] theorem clearFlags_mem : (s.clearFlags).mem = s.mem := rfl
@[simp] theorem clearFlags_regs : (s.clearFlags).regs = s.regs := rfl
@[simp] theorem clearFlags_pc : (s.clearFlags).pc = s.pc := rfl
@[simp] theorem clearFlags_flagL : (s.clearFlags).flagL = false := rfl
@[simp] theorem clearFlags_flagG : (s.clearFlags).flagG = false := rfl
@[simp] theorem clearFlags_flagE : (s.clearFlags).flagE = false := rfl
@[simp] theorem clearFlags_run : (s.clearFlags).run = s.run := rfl
@[simp] theorem clearFlags_err : (s.clearFlags).err = s.err := rfl
@[simp] theorem clearFlags_out : (s.clearFlags).out = s.out := rfl

/-- Reading a register after writing one: the written value there, the old value elsewhere (spec R6, R12). -/
theorem reg_setReg (r q : Reg) (v : Byte) : (s.setReg r v).reg q = if r = q then v else s.reg q := by
  simp only [reg, setReg, Vector.getElem_set, Fin.ext_iff]

@[simp] theorem reg_setReg_self (r : Reg) (v : Byte) : (s.setReg r v).reg r = v := by simp [reg_setReg]

/-- SP is R7 (spec R13). -/
theorem sp_eq_reg : s.sp = s.reg 7 := rfl

@[simp] theorem sp_setSp (v : Byte) : (s.setSp v).sp = v := reg_setReg_self s 7 v

@[simp] theorem reg_setPc (n : Nat) (q : Reg) : (s.setPc n).reg q = s.reg q := rfl
@[simp] theorem reg_advance (n : Nat) (q : Reg) : (s.advance n).reg q = s.reg q := rfl
@[simp] theorem reg_redirect (v : Byte) (q : Reg) : (s.redirect v).reg q = s.reg q := rfl
@[simp] theorem reg_memWrite (a v : Byte) (q : Reg) : (s.memWrite a v).reg q = s.reg q := rfl
@[simp] theorem reg_output (v : Byte) (q : Reg) : (s.output v).reg q = s.reg q := rfl
@[simp] theorem reg_raise (k : ErrorKind) (q : Reg) : (s.raise k).reg q = s.reg q := rfl
@[simp] theorem reg_clearFlags (q : Reg) : s.clearFlags.reg q = s.reg q := rfl

section compareFlags
variable (p q : Byte)

/-- CMP's flag computation touches the flags only (spec R17, R85). -/
@[simp] theorem compareFlags_mem : (s.compareFlags p q).mem = s.mem := by unfold compareFlags; split_ifs <;> rfl
@[simp] theorem compareFlags_regs : (s.compareFlags p q).regs = s.regs := by unfold compareFlags; split_ifs <;> rfl
@[simp] theorem compareFlags_pc : (s.compareFlags p q).pc = s.pc := by unfold compareFlags; split_ifs <;> rfl
@[simp] theorem compareFlags_run : (s.compareFlags p q).run = s.run := by unfold compareFlags; split_ifs <;> rfl
@[simp] theorem compareFlags_err : (s.compareFlags p q).err = s.err := by unfold compareFlags; split_ifs <;> rfl
@[simp] theorem compareFlags_out : (s.compareFlags p q).out = s.out := by unfold compareFlags; split_ifs <;> rfl

end compareFlags

/-- Two states with equal fields are equal. -/
theorem ext_fields (t : State) (hm : s.mem = t.mem) (hr : s.regs = t.regs) (hp : s.pc = t.pc) (hl : s.flagL = t.flagL)
    (hg : s.flagG = t.flagG) (he : s.flagE = t.flagE) (hrun : s.run = t.run) (herr : s.err = t.err)
    (hout : s.out = t.out) : s = t := by
  cases s; cases t; simp_all

end Sys2Proof.Machine.State
end

