-- ==== Sys2Proof/Laws/Ops.lean ====
section
/-! SUPPORT. For each shared operation, once, everything it can do. -/

namespace Sys2Proof.Machine

@[simp] theorem except_pure_bind {α β : Type} (a : α) (f : α → Except ErrorKind β) :
    ((pure a : Except ErrorKind α) >>= f) = f a := rfl

@[simp] theorem except_throw_bind {α β : Type} (k : ErrorKind) (f : α → Except ErrorKind β) :
    ((throw k : Except ErrorKind α) >>= f) = throw k := rfl

@[simp] theorem State.commit_pure (s t : State) : s.commit (pure t) = .next t := rfl

@[simp] theorem State.commit_throw (s : State) (k : ErrorKind) : s.commit (throw k) = .next (s.raise k) := rfl

/-- A committed computation answers a next state: the computed one, or the error entry on the state at the start. -/
theorem State.commit_eq_next {s t : State} {r : Except ErrorKind State} (h : s.commit r = .next t) :
    r = .ok t ∨ ∃ k, r = .error k ∧ t = s.raise k := by
  cases r with
  | ok u => exact .inl (by simpa [State.commit] using h)
  | error k => exact .inr ⟨k, rfl, by simpa [State.commit] using h.symm⟩

/-- `RegIdx` of a legal byte (spec R56). -/
theorem regIdx_legal (b : Byte) (r : Reg) (h : b.toNat = r.val) : regIdx b = pure r := by
  have hb : b.toNat < 8 := by omega
  have hr : (⟨b.toNat, hb⟩ : Reg) = r := Fin.ext h
  rw [regIdx, dif_pos hb, hr]

/-- `RegIdx` of a byte above 7 (spec R56). -/
theorem regIdx_illegal (b : Byte) (h : 7 < b.toNat) :
    regIdx b = throw (.outOfRangeAddress .reg b.toNat) := by
  rw [regIdx, dif_neg (by omega)]

/-- Every operand byte is legal, and names one register, or is above 7. -/
theorem registerOperand_cases (b : Byte) : (∃ r : Reg, b.toNat = r.val) ∨ 7 < b.toNat := by
  by_cases h : b.toNat < 8
  · exact .inl ⟨⟨b.toNat, h⟩, rfl⟩
  · exact .inr (by omega)

/-- The implicit decrement of SP away from 0 (spec R13). -/
theorem State.decSp_of_ne (s : State) (h : s.sp ≠ 0#8) : s.decSp = pure (s.setSp (s.sp - 1#8)) := by
  rw [State.decSp, if_neg h]

theorem State.decSp_of_eq (s : State) (h : s.sp = 0#8) : s.decSp = throw (.outOfRangeAddress .sp (-1)) := by
  rw [State.decSp, if_pos h]

/-- The implicit increment of SP away from 255 (spec R13). -/
theorem State.incSp_of_ne (s : State) (h : s.sp ≠ 255#8) : s.incSp = pure (s.setSp (s.sp + 1#8)) := by
  rw [State.incSp, if_neg h]

theorem State.incSp_of_eq (s : State) (h : s.sp = 255#8) : s.incSp = throw (.outOfRangeAddress .sp 256) := by
  rw [State.incSp, if_pos h]

theorem returnAddress_fits (s : State) (h : s.pc ≤ 253) : returnAddress s = pure (BitVec.ofNat 8 (s.pc + 2)) := by
  rw [returnAddress, if_neg (by omega)]

theorem returnAddress_raises (s : State) (h : 253 < s.pc) :
    returnAddress s = throw (.outOfRangeAddress .retaddr (s.pc + 2 : Nat)) := by
  rw [returnAddress, if_pos (by omega)]

theorem jumpTo_legal (s : State) (b : Byte) (r : Reg) (h : b.toNat = r.val) :
    jumpTo b s = pure (s.redirect (s.reg r)) := by
  simp [jumpTo, State.regOperand, regIdx_legal b r h]

theorem jumpTo_illegal (s : State) (b : Byte) (h : 7 < b.toNat) :
    jumpTo b s = throw (.outOfRangeAddress .reg b.toNat) := by
  rw [jumpTo, State.regOperand, regIdx_illegal b h]; rfl

/-- ADD, MUL and CMP on legal operands: the ALU's state, `pc` advanced by 3 (spec R87 to R89). -/
theorem aluInstr_legal (op : AluOp) (s : State) (op1 op2 : Byte) (a b : Reg) (ha : op1.toNat = a.val)
    (hb : op2.toNat = b.val) : aluInstr op op1 op2 s = .next ((alu op a b s).advance 3) := by
  rw [aluInstr, regIdx_legal _ a ha, regIdx_legal _ b hb]; rfl

/-- The first operand is checked first (spec R56). -/
theorem aluInstr_illegal_first (op : AluOp) (s : State) (op1 op2 : Byte) (h : 7 < op1.toNat) :
    aluInstr op op1 op2 s = .next (s.raise (.outOfRangeAddress .reg op1.toNat)) := by
  rw [aluInstr, regIdx_illegal _ h]; rfl

theorem aluInstr_illegal_second (op : AluOp) (s : State) (op1 op2 : Byte) (a : Reg) (ha : op1.toNat = a.val)
    (h : 7 < op2.toNat) : aluInstr op op1 op2 s = .next (s.raise (.outOfRangeAddress .reg op2.toNat)) := by
  rw [aluInstr, regIdx_legal _ a ha, regIdx_illegal _ h]; rfl

/-- Unsigned comparison (spec R89, with `CMP_SIGNED` false). -/
theorem lessThan_iff (p q : Byte) : lessThan p q = true ↔ p.toNat < q.toNat := by
  simp [lessThan, BitVec.ult]

/-- The flags after a comparison, each on its own (spec R89). -/
theorem State.compareFlags_flagL (s : State) (p q : Byte) :
    (s.compareFlags p q).flagL = decide (p.toNat < q.toNat) := by
  unfold State.compareFlags
  split_ifs with h1 h2 <;> simp_all [lessThan_iff]

theorem State.compareFlags_flagG (s : State) (p q : Byte) :
    (s.compareFlags p q).flagG = decide (q.toNat < p.toNat) := by
  unfold State.compareFlags
  split_ifs with h1 h2 <;> simp_all [lessThan_iff]
  omega

theorem State.compareFlags_flagE (s : State) (p q : Byte) : (s.compareFlags p q).flagE = decide (p = q) := by
  unfold State.compareFlags
  split_ifs with h1 h2 <;> simp_all [lessThan_iff, BitVec.toNat_eq] <;> omega

end Sys2Proof.Machine
end

