-- ==== Sys2Proof/Laws/PerInstr.lean ====
section
/-! SUPPORT. Facts about each instruction as syntax, one lemma per constructor. -/

namespace Sys2Proof.Laws.Length

/-- The opcode byte announces exactly the operand bytes the instruction has (spec R50, R53). -/
def Statement (i : Instr) : Prop := operandCount i.opcode.byte = i.operands.length

theorem hlt : Statement .hlt := by simp [Statement, operandCount, Instr.opcode, Opcode.byte, Instr.operands]
theorem ret : Statement .ret := by simp [Statement, operandCount, Instr.opcode, Opcode.byte, Instr.operands]
theorem push (op1 : Byte) : Statement (.push op1) := by simp [Statement, operandCount, Instr.opcode, Opcode.byte, Instr.operands]
theorem pop (op1 : Byte) : Statement (.pop op1) := by simp [Statement, operandCount, Instr.opcode, Opcode.byte, Instr.operands]
theorem prn (op1 : Byte) : Statement (.prn op1) := by simp [Statement, operandCount, Instr.opcode, Opcode.byte, Instr.operands]
theorem call (op1 : Byte) : Statement (.call op1) := by simp [Statement, operandCount, Instr.opcode, Opcode.byte, Instr.operands]
theorem jmp (op1 : Byte) : Statement (.jmp op1) := by simp [Statement, operandCount, Instr.opcode, Opcode.byte, Instr.operands]
theorem jeq (op1 : Byte) : Statement (.jeq op1) := by simp [Statement, operandCount, Instr.opcode, Opcode.byte, Instr.operands]
theorem jne (op1 : Byte) : Statement (.jne op1) := by simp [Statement, operandCount, Instr.opcode, Opcode.byte, Instr.operands]
theorem ldi (op1 op2 : Byte) : Statement (.ldi op1 op2) := by simp [Statement, operandCount, Instr.opcode, Opcode.byte, Instr.operands]
theorem add (op1 op2 : Byte) : Statement (.add op1 op2) := by simp [Statement, operandCount, Instr.opcode, Opcode.byte, Instr.operands]
theorem mul (op1 op2 : Byte) : Statement (.mul op1 op2) := by simp [Statement, operandCount, Instr.opcode, Opcode.byte, Instr.operands]
theorem cmp (op1 op2 : Byte) : Statement (.cmp op1 op2) := by simp [Statement, operandCount, Instr.opcode, Opcode.byte, Instr.operands]

end Sys2Proof.Laws.Length
end

