-- ==== Sys2Proof/Laws/Step.lean ====
section
/-! SUPPORT. What a step can do, said once. -/

namespace Sys2Proof.Machine

theorem State.fetchByte_inside (s : State) (a : Nat) (h : a ≤ 255) : s.fetchByte a = pure (s.mem.read a) := by
  rw [State.fetchByte, if_neg (by omega)]

theorem State.fetchByte_outside (s : State) (a : Nat) (h : 255 < a) :
    s.fetchByte a = throw (.outOfRangeAddress .fetch a) := by
  rw [State.fetchByte, if_pos h]

/-- Steps 1 to 3 of spec R70, case by case: everything `fetchInstr` can answer. -/
theorem fetchInstr_past_top (s : State) (h : 255 < s.pc) : fetchInstr s = .error (.outOfRangeAddress .fetch s.pc) := by
  rw [fetchInstr, State.fetchByte_outside s _ h]; rfl

theorem fetchInstr_unknown (s : State) (h : s.pc ≤ 255) (hn : Opcode.ofByte? (s.mem.read s.pc) = none) :
    fetchInstr s = .error (.unknownOpcode (s.mem.read s.pc)) := by
  rw [fetchInstr, State.fetchByte_inside s _ h, except_pure_bind, hn]; rfl

theorem fetchInstr_known (s : State) (h : s.pc ≤ 255) {o : Opcode} (ho : Opcode.ofByte? (s.mem.read s.pc) = some o) :
    fetchInstr s = (do
      let op1 ← s.fetchOperand (operandCount o.byte) 1
      let op2 ← s.fetchOperand (operandCount o.byte) 2
      pure (o.toInstr op1 op2)) := by
  rw [fetchInstr, State.fetchByte_inside s _ h, except_pure_bind, ho, Opcode.byte_of_ofByte? ho]

/-- A step happens in RUNNING only: it raises while fetching, or it executes the fetched instruction (spec R70). -/
theorem step_cases {s t : State} (h : step s = .next t) :
    s.run = .running ∧
      ((∃ k, fetchInstr s = .error k ∧ t = s.raise k) ∨ ∃ i, fetchInstr s = .ok i ∧ exec i s = .next t) := by
  unfold step at h
  split at h
  · cases h
  · rename_i hrun
    refine ⟨hrun, ?_⟩
    split at h
    · rename_i k hk
      exact .inl ⟨k, hk, by simpa using h.symm⟩
    · rename_i i hi
      exact .inr ⟨i, hi, h⟩

theorem step_of_fetch {s : State} {i : Instr} (hrun : s.run = .running) (h : fetchInstr s = .ok i) :
    step s = exec i s := by
  simp [step, hrun, h]

theorem step_of_fetch_error {s : State} {k : ErrorKind} (hrun : s.run = .running) (h : fetchInstr s = .error k) :
    step s = .next (s.raise k) := by
  simp [step, hrun, h]

end Sys2Proof.Machine
end

