-- ==== Sys2Proof/Tests/Slice0.lean ====
section
/-! SUPPORT. Small tests. The expected results are the spec's: the vectors of 95_test_vectors.md (named V-…, T-…) and the
encodings of 30_encoding.md. Then one witness per statement with hypotheses: a state and operands that meet them. -/

namespace Sys2Proof.Tests

open Sys2Proof.Machine

/-- The reset state with bytes placed at an address, `pc` there, and some registers set. -/
def st (pc : Nat) (bytes : List Byte) (regs : List (Reg × Byte)) : State :=
  regs.foldl (fun s p => s.setReg p.1 p.2) { State.reset with mem := Memory.writeBytes [] pc bytes, pc := pc }

/-- Something of the state after one step. -/
def after {α : Type} (s : State) (f : State → α) : Option α := (nextState? (step s)).map f

/-! ## Well-formedness: each check refuses -/

theorem test_wf_refuses_push : (Instr.push 8#8).wellFormed = false := by decide
theorem test_wf_refuses_pop : (Instr.pop 8#8).wellFormed = false := by decide
theorem test_wf_refuses_prn : (Instr.prn 9#8).wellFormed = false := by decide
theorem test_wf_refuses_call : (Instr.call 8#8).wellFormed = false := by decide
theorem test_wf_refuses_jmp : (Instr.jmp 255#8).wellFormed = false := by decide
theorem test_wf_refuses_jeq : (Instr.jeq 8#8).wellFormed = false := by decide
theorem test_wf_refuses_jne : (Instr.jne 8#8).wellFormed = false := by decide
theorem test_wf_refuses_ldi : (Instr.ldi 8#8 0#8).wellFormed = false := by decide
theorem test_wf_refuses_add : (Instr.add 8#8 0#8).wellFormed = false ∧ (Instr.add 0#8 8#8).wellFormed = false := by decide
theorem test_wf_refuses_mul : (Instr.mul 8#8 0#8).wellFormed = false ∧ (Instr.mul 0#8 8#8).wellFormed = false := by decide
theorem test_wf_refuses_cmp : (Instr.cmp 8#8 0#8).wellFormed = false ∧ (Instr.cmp 0#8 8#8).wellFormed = false := by decide
theorem test_wf_accepts : (Instr.ldi 7#8 255#8).wellFormed = true ∧ (Instr.cmp 7#8 0#8).wellFormed = true := by decide

/-! ## Decoding: each constructor's word written out from R53 and R51 -/

theorem test_decode_hlt : decode [0b00000001#8] = .ok (.hlt, []) := by decide
theorem test_decode_ret : decode [0b00010001#8] = .ok (.ret, []) := by decide
theorem test_decode_push : decode [0b01000101#8, 0b00000011#8] = .ok (.push 3#8, []) := by decide
theorem test_decode_pop : decode [0b01000110#8, 0b00000010#8] = .ok (.pop 2#8, []) := by decide
theorem test_decode_prn : decode [0b01000111#8, 0b00001001#8] = .ok (.prn 9#8, []) := by decide
theorem test_decode_call : decode [0b01010000#8, 0b00000001#8] = .ok (.call 1#8, []) := by decide
theorem test_decode_jmp : decode [0b01010100#8, 0b00000110#8] = .ok (.jmp 6#8, []) := by decide
theorem test_decode_jeq : decode [0b01010101#8, 0b00000010#8] = .ok (.jeq 2#8, []) := by decide
theorem test_decode_jne : decode [0b01010110#8, 0b00000011#8] = .ok (.jne 3#8, []) := by decide
theorem test_decode_ldi : decode [0b10000010#8, 0b00000011#8, 0b00101010#8] = .ok (.ldi 3#8 42#8, []) := by decide
theorem test_decode_add : decode [0b10100000#8, 0b00000001#8, 0b00000010#8] = .ok (.add 1#8 2#8, []) := by decide
theorem test_decode_mul : decode [0b10100010#8, 0b00000000#8, 0b00000001#8] = .ok (.mul 0#8 1#8, []) := by decide
theorem test_decode_cmp : decode [0b10100111#8, 0b00000100#8, 0b00000101#8] = .ok (.cmp 4#8 5#8, []) := by decide
/-- T-DEC-2 and the neighbours of V-UNK-4. -/
theorem test_decode_unknown : ∀ b ∈ [0xA1#8, 0x00#8, 0x02#8, 0x10#8, 0x44#8, 0x48#8, 0x51#8, 0x53#8, 0x57#8, 0x81#8,
    0x83#8, 0xA3#8, 0xA6#8, 0xA8#8, 0xC0#8, 0xFF#8], decode [b, 0#8, 1#8] = .error (.unknownOpcode b) := by decide
/-- R72: a missing operand is told by its position. -/
theorem test_decode_short : decode [0x82#8, 0#8] = .error (.missingOperand 2) ∧ decode [0x55#8] = .error (.missingOperand 1) := by
  decide
/-- The table's numbering: byte 1 is bits 15..8, byte 2 bits 23..16. -/
theorem test_decode_table_word : decodeTableWord 24 0x2A0382 = some (.ldi 3#8 42#8) ∧ decodeTableWord 8 0x2A0382 = some (.ldi 0#8 0#8) := by
  decide

/-! ## Reset (T-RESET-1 to 3) and one or two steps of each instruction -/

theorem test_reset : State.reset.pc = 0 ∧ State.reset.sp = 244#8 ∧ State.reset.reg 6 = 0#8 ∧ State.reset.mem.wf := by
  decide
/-- V-LDI-2. -/
theorem test_ldi : after (st 0x10 [0x82#8, 3#8, 0xFF#8] [(3, 7#8)]) (fun t => (t.reg 3, t.pc)) = some (255#8, 0x13) := by
  decide
/-- V-LDI-6: the instruction that ends at 255 leaves `pc = 256`. -/
theorem test_ldi_at_top : after (st 253 [0x82#8, 0#8, 7#8] []) (fun t => (t.reg 0, t.pc, t.err)) = some (7#8, 256, none) := by
  decide
/-- V-PRN-3. -/
theorem test_prn : after (st 0 [0x47#8, 7#8] []) (fun t => (t.out, t.pc)) = some ([244#8], 2) := by decide
/-- V-PRN-5. -/
theorem test_prn_bad_register : after (st 0 [0x47#8, 0x0A#8] []) (fun t => (t.out, t.pc, t.run, t.err)) =
    some ([], 0, .halted, some (.outOfRangeAddress .reg 10)) := by decide
/-- V-ADD-2. -/
theorem test_add : after (st 0 [0xA0#8, 0#8, 1#8] [(0, 200#8), (1, 100#8)]) (fun t => (t.reg 0, t.reg 1, t.pc)) =
    some (44#8, 100#8, 3) := by decide
/-- V-ADD-13: the first operand is reported. -/
theorem test_add_bad_registers : after (st 0 [0xA0#8, 0x0A#8, 0x0B#8] []) (fun t => t.err) =
    some (some (.outOfRangeAddress .reg 10)) := by decide
/-- V-MUL-9. -/
theorem test_mul : after (st 0 [0xA2#8, 3#8, 6#8] [(3, 200#8), (6, 3#8)]) (fun t => (t.reg 3, t.reg 6)) =
    some (88#8, 3#8) := by decide
/-- V-MUL-5: the same register twice. -/
theorem test_mul_square : after (st 0 [0xA2#8, 0#8, 0#8] [(0, 17#8)]) (fun t => t.reg 0) = some 33#8 := by decide
/-- V-CMP-4: unsigned. -/
theorem test_cmp : after (st 0 [0xA7#8, 0#8, 1#8] [(0, 200#8), (1, 100#8)]) (fun t => (t.flagL, t.flagG, t.flagE)) =
    some (false, true, false) := by decide
/-- V-CMP-8: the old flag is cleared. -/
theorem test_cmp_clears : after { st 0 [0xA7#8, 0#8, 1#8] [(0, 2#8), (1, 2#8)] with flagL := true }
    (fun t => (t.flagL, t.flagG, t.flagE)) = some (false, false, true) := by decide
/-- V-PUSH-1. -/
theorem test_push : after (st 0x0B [0x45#8, 0#8] [(0, 10#8)]) (fun t => (t.sp, t.mem.read 0xF3, t.pc, t.reg 0)) =
    some (0xF3#8, 10#8, 0x0D, 10#8) := by decide
/-- V-PUSH-4, first step: PUSH R7 stores the decremented stack pointer. -/
theorem test_push_sp : after (st 0 [0x45#8, 7#8] []) (fun t => (t.sp, t.mem.read 0xF3)) = some (0xF3#8, 0xF3#8) := by
  decide
/-- V-POP-1. -/
theorem test_pop : after ((st 0x12 [0x46#8, 2#8] [(7, 0xF3#8)]).memWrite 0xF3#8 10#8)
    (fun t => (t.reg 2, t.sp, t.pc, t.mem.read 0xF3)) = some (10#8, 0xF4#8, 0x14, 10#8) := by decide
/-- V-POP-5: POP R7 of 255 raises and R7 keeps its value. -/
theorem test_pop_sp_raises : after ((st 0 [0x46#8, 7#8] [(7, 0xF3#8)]).memWrite 0xF3#8 255#8) (fun t => (t.sp, t.err)) =
    some (0xF3#8, some (.outOfRangeAddress .sp 256)) := by decide
/-- V-CALL-1. -/
theorem test_call : after (st 6 [0x50#8, 1#8] [(1, 0x0B#8)]) (fun t => (t.sp, t.mem.read 0xF3, t.pc)) =
    some (0xF3#8, 8#8, 0x0B) := by decide
/-- V-ERR-3: RETADDR is reported before SP. -/
theorem test_call_return_address : after (st 254 [0x50#8, 0#8] [(7, 0#8)]) (fun t => (t.pc, t.sp, t.err)) =
    some (254, 0#8, some (.outOfRangeAddress .retaddr 256)) := by decide
/-- V-RET-4. -/
theorem test_ret : after ((st 255 [0x11#8] [(7, 0x10#8)]).memWrite 0x10#8 0x33#8) (fun t => (t.pc, t.sp)) =
    some (0x33, 0x11#8) := by decide
/-- V-RET-3. -/
theorem test_ret_raises : after ((st 0 [0x11#8] [(7, 255#8)]).memWrite 255#8 3#8) (fun t => (t.pc, t.sp, t.err)) =
    some (0, 255#8, some (.outOfRangeAddress .sp 256)) := by decide
/-- V-JMP-3. -/
theorem test_jmp : after (st 0 [0x54#8, 7#8] []) (fun t => t.pc) = some 0xF4 := by decide
/-- V-JEQ-1. -/
theorem test_jeq : after { st 0x10 [0x55#8, 2#8] [(2, 0x20#8)] with flagE := true } (fun t => (t.pc, t.flagE)) =
    some (0x20, true) := by decide
/-- V-JEQ-4 and V-JEQ-6: not taken, a bad register is no error, a missing operand byte is. -/
theorem test_jeq_not_taken : after (st 0 [0x55#8, 9#8] []) (fun t => (t.pc, t.err)) = some (2, none) ∧
    after (st 255 [0x55#8] []) (fun t => (t.pc, t.err)) = some (255, some (.outOfRangeAddress .fetch 256)) := by decide
/-- V-JNE-1. -/
theorem test_jne : after { st 0x14 [0x56#8, 3#8] [(3, 0x0C#8)] with flagG := true } (fun t => t.pc) = some 0x0C := by
  decide
/-- V-JNE-5. -/
theorem test_jne_not_taken : after { st 0 [0x56#8, 9#8] [] with flagE := true } (fun t => (t.pc, t.err)) = some (2, none) := by
  decide
/-- V-HLT-2. -/
theorem test_hlt : after (st 255 [0x01#8] []) (fun t => (t.run, t.err, t.pc)) = some (.halted, none, 255) := by decide
/-- V-UNK-3: an unknown opcode at 255 is not a fetch error. -/
theorem test_unknown_at_top : after (st 255 [0xC0#8] []) (fun t => t.err) = some (some (.unknownOpcode 0xC0#8)) := by
  decide
/-- V-HLT-3: no step in HALTED. -/
theorem test_no_step_in_halted : nextState? (step { State.reset with run := .halted }) = none := by decide
/-- V-SUB-1 and V-SUB-2. -/
theorem test_alu_sub : (alu .sub 0 1 (st 0 [] [(0, 5#8), (1, 7#8)])).reg 0 = 254#8 ∧
    (alu .sub 0 1 (st 0 [] [(0, 0#8), (1, 1#8)])).reg 0 = 255#8 := by decide
/-- R145's example. -/
theorem test_host_text : hostText [20#8, 30#8] = ['2', '0', '\n', '3', '0', '\n'] := by decide
/-- R60's example. -/
theorem test_listing : listing (.ldi 0#8 8#8) = "LDI R0,8" := by decide
/-- T-LOAD-1. -/
theorem test_load : (State.reset.load [0x82#8, 0#8, 8#8]).map (fun t => (t.mem.read 0, t.mem.read 1, t.mem.read 2, t.pc)) =
    some (0x82#8, 0#8, 8#8, 0) := by decide
/-- The word placed for the next fetch is the one the step runs. -/
theorem test_with_fetch_word : after (State.reset.withFetchWord 24 0x2A0382) (fun t => (t.reg 3, t.pc)) = some (42#8, 3) := by
  decide

/-! ## Witnesses: for every statement with hypotheses, states and operands that meet them, each clause at a boundary -/

open Sys2Proof.Statements

theorem witness_DecodeAndEncodeAgree : decode [0x82#8, 0#8, 8#8] = .ok (.ldi 0#8 8#8, []) := by decide

/-- An unknown opcode as the last byte of memory. -/
theorem witness_UnknownOpcodeRaisesOnByteZeroAlone : let s := st 255 [0xC0#8] []
    s.run = .running ∧ s.pc ≤ 255 ∧ s.mem.read s.pc ∉ [0x01#8, 0x11#8, 0x45#8, 0x46#8, 0x47#8, 0x50#8, 0x54#8, 0x55#8, 0x56#8,
      0x82#8, 0xA0#8, 0xA2#8, 0xA7#8] := by decide

/-- A two-byte instruction that ends at 255. -/
theorem witness_StepRunsTheDecodedInstruction : let s := st 254 [0x47#8, 7#8] []
    s.run = .running ∧ AtPc s (.prn 7#8) := ⟨by decide, [], by decide⟩

theorem witness_StepFetchesDecodesExecutes_halted : ({ State.reset with run := .halted } : State).run = .halted := by decide
theorem witness_StepFetchesDecodesExecutes_past_top : (st 256 [] []).run = .running ∧ 255 < (st 256 [] []).pc := by decide
theorem witness_StepFetchesDecodesExecutes_unknown : let s := st 255 [0xA1#8] []
    s.run = .running ∧ s.pc ≤ 255 ∧ Opcode.ofByte? (s.mem.read s.pc) = none := by decide
theorem witness_StepFetchesDecodesExecutes_op1 : let s := st 255 [0x55#8] []
    s.run = .running ∧ Opcode.ofByte? (s.mem.read s.pc) = some .jeq ∧ 1 ≤ operandCount (s.mem.read s.pc) ∧
      s.pc + (1 - 1) ≤ 255 ∧ 255 < s.pc + 1 := by decide
theorem witness_StepFetchesDecodesExecutes_op2 : let s := st 254 [0x82#8, 0#8] []
    s.run = .running ∧ Opcode.ofByte? (s.mem.read s.pc) = some .ldi ∧ 2 ≤ operandCount (s.mem.read s.pc) ∧
      s.pc + (2 - 1) ≤ 255 ∧ 255 < s.pc + 2 := by decide
theorem witness_StepFetchesDecodesExecutes_executes : let s := st 253 [0x82#8, 0#8, 7#8] []
    s.run = .running ∧ Opcode.ofByte? (s.mem.read s.pc) = some .ldi ∧ s.pc + operandCount (s.mem.read s.pc) ≤ 255 := by decide

/-- A HLT, a raise, and a reset out of HALTED. -/
theorem witness_RunChangesOnlyByHltOrRaise :
    (∃ t, step (st 255 [0x01#8] []) = .next t ∧ t.run = .halted) ∧ (∃ t, step (st 256 [] []) = .next t ∧ t.run = .halted) ∧
    (∃ t, step (st 0 [0x47#8, 0#8] []) = .next t ∧ t.run = .running) ∧
    ∃ t, ({ State.reset with run := .halted } : State).hostMove .reset = some t :=
  ⟨⟨_, rfl, by decide⟩, ⟨_, rfl, by decide⟩, ⟨_, rfl, by decide⟩, ⟨_, rfl⟩⟩

theorem witness_CleanEndExactlyAfterHlt : (st 0 [0x01#8] []).err = none ∧ ∃ t, step (st 0 [0x01#8] []) = .next t ∧ t.EndedCleanly :=
  ⟨by decide, _, rfl, by decide⟩

theorem witness_ErrorsArePrecise : (st 0 [0x47#8, 8#8] []).err = none ∧
    ∃ t, step (st 0 [0x47#8, 8#8] []) = .next t ∧ t.err = some (.outOfRangeAddress .reg 8) := ⟨by decide, _, rfl, by decide⟩

theorem witness_OutOfRangeCausesAreComplete_fetch : (st 256 [] []).pc ≤ 256 ∧ (st 256 [] []).err = none ∧
    ∃ t, step (st 256 [] []) = .next t ∧ t.err = some (.outOfRangeAddress .fetch 256) := ⟨by decide, by decide, _, rfl, by decide⟩
/-- A first operand byte at 256, of a JEQ that would not be taken, and a second one. -/
theorem witness_OutOfRangeCausesAreComplete_fetch_operand : ∀ s ∈ [st 255 [0x55#8] [], st 254 [0x82#8, 0#8] []],
    s.pc ≤ 256 ∧ s.err = none ∧ after s (fun t => t.err) = some (some (.outOfRangeAddress .fetch 256)) := by decide
theorem witness_OutOfRangeCausesAreComplete_reg : ∀ b ∈ [8#8, 255#8], (st 0 [0x54#8, b] []).pc ≤ 256 ∧ (st 0 [0x54#8, b] []).err = none ∧
    after (st 0 [0x54#8, b] []) (fun t => t.err) = some (some (.outOfRangeAddress .reg b.toNat)) := by decide
theorem witness_OutOfRangeCausesAreComplete_retaddr : (st 254 [0x50#8, 0#8] []).pc ≤ 256 ∧ (st 254 [0x50#8, 0#8] []).err = none ∧
    ∃ t, step (st 254 [0x50#8, 0#8] []) = .next t ∧ t.err = some (.outOfRangeAddress .retaddr 256) :=
  ⟨by decide, by decide, _, rfl, by decide⟩
theorem witness_OutOfRangeCausesAreComplete_sp : ∀ s ∈ [st 0 [0x45#8, 0#8] [(7, 0#8)], st 0 [0x50#8, 0#8] [(7, 0#8)]],
    s.pc ≤ 256 ∧ s.err = none ∧ after s (fun t => t.err) = some (some (.outOfRangeAddress .sp (-1))) := by decide
theorem witness_OutOfRangeCausesAreComplete_sp_up : ∀ s ∈ [st 0 [0x11#8] [(7, 255#8)], st 0 [0x46#8, 0#8] [(7, 255#8)],
    (st 0 [0x46#8, 7#8] [(7, 0xF3#8)]).memWrite 0xF3#8 255#8],
    s.pc ≤ 256 ∧ s.err = none ∧ after s (fun t => t.err) = some (some (.outOfRangeAddress .sp 256)) := by decide

theorem witness_UnsupportedAluOperationNeverRaised : (st 0 [0xA0#8, 0#8, 1#8] []).err ≠ some .unsupportedALUOperation ∧
    ∃ t, step (st 0 [0xA0#8, 0#8, 1#8] []) = .next t := ⟨by decide, _, rfl⟩

theorem witness_WellFormedInstructionsNeverRaiseReg : (Instr.push 7#8).wellFormed = true ∧ (st 0 [] [(7, 0#8)]).err = none ∧
    ∃ t, exec (.push 7#8) (st 0 [] [(7, 0#8)]) = .next t ∧ t.err ≠ none := ⟨by decide, by decide, _, rfl, by decide⟩

/-- Every instruction answers a next state without an error at one state, JEQ and JNE on both sides. -/
theorem witness_ProgramCounterTable : ∀ i ∈ [Instr.hlt, .ret, .push 7#8, .pop 7#8, .prn 7#8, .call 7#8, .jmp 7#8, .jeq 7#8, .jne 7#8,
    .ldi 7#8 0#8, .add 7#8 7#8, .mul 7#8 7#8, .cmp 7#8 7#8],
    (nextState? (exec i (st 0 [] []))).map State.err = some none ∧
    (nextState? (exec i { st 0 [] [] with flagE := true })).map State.err = some none := by decide

theorem witness_StepKeepsInvariant : (st 254 [0x47#8, 0#8] []).Inv ∧ ∃ t, step (st 254 [0x47#8, 0#8] []) = .next t ∧ t.pc = 256 :=
  ⟨⟨by decide, by decide, by decide, by decide⟩, _, rfl, by decide⟩

theorem witness_ReachableStatesMeetInvariant : ∃ t, State.Reachable t ∧ t.run = .halted :=
  ⟨_, .move State.reset _ .step .reset rfl, by decide⟩

theorem witness_OutputIsAppendedByPrnOnly : (∃ t, step (st 0 [0x47#8, 7#8] []) = .next t ∧ t.out = [244#8]) ∧
    (∃ t, step (st 0 [0x47#8, 8#8] []) = .next t ∧ t.out = []) := ⟨⟨_, rfl, by decide⟩, ⟨_, rfl, by decide⟩⟩

/-- A CMP of two registers, one that raises on each operand, and an instruction that is no CMP. -/
theorem witness_FlagsAreWrittenByCmpOnly : (∃ t, exec (.cmp 0#8 7#8) State.reset = .next t ∧ t.flagL = true) ∧
    (∃ t, exec (.cmp 8#8 7#8) State.reset = .next t) ∧ (∃ t, exec (.cmp 7#8 255#8) State.reset = .next t) ∧
    (∃ t, exec (.add 7#8 7#8) State.reset = .next t) ∧ ∀ a b, Instr.add 7#8 7#8 ≠ .cmp a b :=
  ⟨⟨_, rfl, by decide⟩, ⟨_, rfl⟩, ⟨_, rfl⟩, ⟨_, rfl⟩, nofun⟩

theorem witness_LessAndGreaterAreNeverRead : ∃ t, step (st 0 [0x56#8, 7#8] []) = .next t ∧ t.pc = 244 := ⟨_, rfl, by decide⟩

theorem witness_MemoryReadAfterWrite : (State.reset.memWrite 255#8 1#8).mem.wf ∧ (0#8 : Byte) ≠ 255#8 := by decide

/-- Two histories of writes, one through a value that is written back to 0. -/
theorem witness_CanonicalMemoriesThatReadAlikeAreEqual : let m := Memory.write (Memory.write [] 255 1#8) 0 2#8
    let m' := Memory.write (Memory.write (Memory.write (Memory.write [] 0 2#8) 7 9#8) 255 1#8) 7 0#8
    m.wf ∧ m'.wf ∧ ∀ a : Nat, a < 256 → m.read a = m'.read a :=
  ⟨by decide, by decide, fun _ _ => rfl⟩

/-- LDI, PRN, ADD, MUL, CMP, JMP: register operands at both ends of the legal range and of the illegal one. -/
theorem witness_register_operands : (0#8 : Byte).toNat = (0 : Reg).val ∧ (7#8 : Byte).toNat = (7 : Reg).val ∧
    7 < (8#8 : Byte).toNat ∧ 7 < (255#8 : Byte).toNat ∧ (7#8 : Byte).toNat ≤ 7 := by decide

/-- PUSH: the lowest SP that pushes, with R7 and another register; SP = 0; an operand of 8. -/
theorem witness_PushStoresBelowTheStackPointer : (7#8 : Byte).toNat = (7 : Reg).val ∧ (st 0 [] [(7, 1#8)]).sp ≠ 0#8 ∧
    (st 0 [] [(7, 1#8)]).mem.wf ∧ (7#8 : Byte).toNat ≤ 7 ∧ (st 0 [] [(7, 0#8)]).sp = 0#8 ∧ 7 < (8#8 : Byte).toNat := by decide

/-- POP: the highest SP that pops; R7 with a byte of 254; SP = 255; R7 with a byte of 255; an operand of 8. -/
theorem witness_PopLoadsFromTheStackPointer : (6#8 : Byte).toNat = (6 : Reg).val ∧ (6 : Reg) ≠ 7 ∧ (st 0 [] [(7, 254#8)]).sp ≠ 255#8 ∧
    ((st 0 [] []).memWrite 244#8 254#8).mem.read (st 0 [] []).sp.toNat ≠ 255#8 ∧ (6#8 : Byte).toNat < 7 ∧
    (st 0 [] [(7, 255#8)]).sp = 255#8 ∧ ((st 0 [] []).memWrite 244#8 255#8).mem.read (st 0 [] []).sp.toNat = 255#8 ∧
    7 < (8#8 : Byte).toNat := by decide

/-- CALL: the last address that calls, with SP = 1; SP = 0; the address whose return address is 256; an operand of 8. -/
theorem witness_CallStacksTheReturnAddress : (7#8 : Byte).toNat = (7 : Reg).val ∧ (st 253 [] [(7, 1#8)]).pc ≤ 253 ∧
    (st 253 [] [(7, 1#8)]).sp ≠ 0#8 ∧ (st 253 [] [(7, 1#8)]).mem.wf ∧ (7#8 : Byte).toNat ≤ 7 ∧ (st 253 [] [(7, 0#8)]).sp = 0#8 ∧
    (st 254 [] []).pc = 254 ∧ 7 < (8#8 : Byte).toNat := by decide

theorem witness_RetPopsTheProgramCounter : (st 0 [] [(7, 254#8)]).sp ≠ 255#8 ∧ (st 0 [] [(7, 255#8)]).sp = 255#8 := by decide

theorem witness_JeqJumpsWhenEqual_and_JneJumpsWhenNotEqual : (7#8 : Byte).toNat = (7 : Reg).val ∧ 7 < (8#8 : Byte).toNat ∧
    ({ State.reset with flagE := true } : State).flagE = true ∧ State.reset.flagE = false := by decide

theorem witness_AluOperations : AluOp.sub ≠ .cmp ∧ (6 : Reg) ≠ 7 ∧ ∀ x ∈ [0x00#8, 0xA1#8, 0xFF#8], x ∉ [0x01#8, 0x11#8, 0x45#8,
    0x46#8, 0x47#8, 0x50#8, 0x54#8, 0x55#8, 0x56#8, 0x82#8, 0xA0#8, 0xA2#8, 0xA7#8] := by decide

theorem witness_RegisterFormsFrame : ∀ i ∈ [Instr.ldi 7#8 8#8, .add 7#8 0#8, .mul 7#8 0#8],
    (nextState? (exec i State.reset)).isSome = true ∧ (6 : Reg).val ≠ (7#8 : Byte).toNat := by decide

theorem witness_FormsWithoutDestinationFrame : ∀ i ∈ [Instr.cmp 7#8 0#8, .prn 7#8, .jmp 7#8, .jeq 7#8, .jne 7#8, .hlt],
    (nextState? (exec i State.reset)).isSome = true := by decide

theorem witness_StackReadFrame : (∃ t, exec (.pop 7#8) State.reset = .next t) ∧ (∃ t, exec .ret State.reset = .next t) ∧
    (6 : Reg) ≠ 7 := ⟨⟨_, rfl⟩, ⟨_, rfl⟩, by decide⟩

/-- The stored address is the one below SP; the address above it is not. -/
theorem witness_StackWriteFrame : (∃ t, exec (.push 7#8) State.reset = .next t) ∧ (∃ t, exec (.call 7#8) State.reset = .next t) ∧
    (∃ s1, State.reset.decSp = .ok s1 ∧ (244 : Nat) ≠ s1.sp.toNat ∧ s1.sp.toNat = 243) := ⟨⟨_, rfl⟩, ⟨_, rfl⟩, ⟨_, rfl, by decide⟩⟩

theorem witness_StackDiscipline : (st 253 [] [(7, 1#8)]).mem.wf ∧ (st 253 [] [(7, 1#8)]).sp ≠ 0#8 ∧ (st 253 [] [(7, 1#8)]).sp ≠ 255#8 ∧
    (st 253 [] [(7, 1#8)]).pc ≤ 253 ∧ (7#8 : Byte).toNat = (7 : Reg).val ∧ (6#8 : Byte).toNat = (6 : Reg).val ∧ (6 : Reg) ≠ 7 := by
  decide

theorem witness_CallThenRetReturnsPastTheCall : (st 253 [] [(7, 1#8)]).mem.wf ∧ (st 253 [] [(7, 1#8)]).pc ≤ 253 ∧
    (st 253 [] [(7, 1#8)]).sp ≠ 0#8 ∧ (7#8 : Byte).toNat ≤ 7 ∧ ∃ t, exec (.call 7#8) (st 253 [] [(7, 1#8)]) = .next t ∧
      ∃ u : State, u.sp = t.sp ∧ u.mem.read t.sp.toNat = t.mem.read t.sp.toNat :=
  ⟨by decide, by decide, by decide, by decide, _, rfl, _, rfl, rfl⟩

/-- Program P4: the PUSH at 6 with SP = 9 lands on address 8, the next opcode: an unknown byte, a HLT and an ADD. -/
theorem witness_NextFetchSeesThePushedByte_opcode : ∀ v ∈ [0#8, 1#8, 0xA0#8], let s := st 6 [0x45#8, 0#8, 0x47#8] [(7, 9#8), (0, v)]
    s.mem.wf ∧ s.run = .running ∧ (0#8 : Byte).toNat = (0 : Reg).val ∧ s.sp ≠ 0#8 ∧ s.reg 0 = v ∧
      (nextState? (exec (.push 0#8) s)).map (fun t => t.pc + 1) = some s.sp.toNat := by decide
/-- PUSH R7: at 253 the next fetch is at 255, the last byte, at 254 it is past the top of memory. -/
theorem witness_NextFetchSeesThePushedByte_push_sp : ∀ a ∈ [253, 254], let s := st a [0x45#8, 7#8] [(7, 255#8)]
    s.mem.wf ∧ s.run = .running ∧ (7#8 : Byte).toNat = (7 : Reg).val ∧ s.sp ≠ 0#8 ∧
      (nextState? (exec (.push 7#8) s)).map State.pc = some (a + 2) := by decide
/-- CALL R7 goes to the cell that holds its own return address, 0x47 = PRN, which has its operand at 255; a CALL at 253, the
last address that calls, to a PRN at 255 whose operand is missing. -/
theorem witness_NextFetchSeesThePushedByte_call :
    (let s := st 0x45 [0x50#8, 7#8] [(7, 255#8)]
     s.mem.wf ∧ s.run = .running ∧ s.sp ≠ 0#8 ∧ s.pc ≤ 253 ∧ (0x47#8 : Byte).toNat = s.pc + 2 ∧
      (nextState? (exec (.call 7#8) s)).map (fun t => (t.pc, t.mem.read t.pc)) = some (254, 0x47#8)) ∧
    (let s := (st 253 [0x50#8, 0#8] [(0, 255#8)]).memWrite 255#8 0x47#8
     s.mem.wf ∧ s.run = .running ∧ s.sp ≠ 0#8 ∧ s.pc ≤ 253 ∧ (255#8 : Byte).toNat = s.pc + 2 ∧
      (nextState? (exec (.call 0#8) s)).map (fun t => (t.pc, t.mem.read t.pc)) = some (255, 0x47#8)) := by decide

theorem witness_LdiThenPrnOutputsTheValue : let s := st 251 [0x82#8, 7#8, 255#8, 0x47#8, 7#8] []
    s.run = .running ∧ (7#8 : Byte).toNat ≤ 7 ∧ s.pc + 5 ≤ 256 ∧ s.mem.read s.pc = 0x82#8 ∧ s.mem.read (s.pc + 1) = 7#8 ∧
      s.mem.read (s.pc + 2) = 255#8 ∧ s.mem.read (s.pc + 3) = 0x47#8 ∧ s.mem.read (s.pc + 4) = 7#8 := by decide

theorem witness_LoadCopiesTheImageOrIsRefused : (List.replicate 256 1#8).length ≤ 256 ∧ 256 < (List.replicate 257 1#8).length ∧
    { State.reset with run := .halted } ≠ State.reset :=
  ⟨by rw [List.length_replicate], by rw [List.length_replicate]; decide, by decide⟩

theorem witness_RunStopsAtTheFirstHaltedState : ({ State.reset with run := .halted } : State).run = .halted ∧
    (runFor 1 (st 0 [0x01#8] [])).run = .halted := by decide

theorem witness_StatusTellsHowTheRunEnded : (st 0 [0x01#8] []).err = none ∧ ∃ t, step (st 0 [0x01#8] []) = .next t ∧
    t.status = .cleanHalt := ⟨by decide, _, rfl, by decide⟩

theorem witness_PlacedWordIsRunByTheNextStep : (st 255 [] []).mem.wf ∧ decodeTableWord 24 0x2A0382 = some (.ldi 3#8 42#8) := by
  decide

end Sys2Proof.Tests
end

section
/-! PROOF. The fetch part of a step and the decoder agree: an instruction is fetched at `pc` exactly when the decoder reads it
from the bytes at `pc` and after it (spec R59, R70). -/

namespace Sys2Proof

/-- The decoder, one equation per case (spec R50, R63). -/
theorem decode_unknown {b : Byte} {rest : List Byte} (h : Opcode.ofByte? b = none) :
    decode (b :: rest) = .error (.unknownOpcode b) := by
  simp [decode, h]

section known
variable {b : Byte} {o : Opcode} (ho : Opcode.ofByte? b = some o)
include ho

theorem decode_no_operand (hn : operandCount b = 0) (rest : List Byte) :
    decode (b :: rest) = .ok (o.toInstr 0#8 0#8, rest) := by
  simp [decode, ho, hn]

theorem decode_one_operand (hn : operandCount b = 1) (op1 : Byte) (rest : List Byte) :
    decode (b :: op1 :: rest) = .ok (o.toInstr op1 0#8, rest) := by
  simp [decode, ho, hn]

theorem decode_two_operands (hn : operandCount b = 2) (op1 op2 : Byte) (rest : List Byte) :
    decode (b :: op1 :: op2 :: rest) = .ok (o.toInstr op1 op2, rest) := by
  simp [decode, ho, hn]

theorem decode_missing_first (hn : operandCount b ≠ 0) : decode [b] = .error (.missingOperand 1) := by
  obtain ⟨n, hn⟩ := Nat.exists_eq_succ_of_ne_zero hn
  simp [decode, ho, hn]

theorem decode_missing_second (hn : operandCount b = 2) (op1 : Byte) :
    decode [b, op1] = .error (.missingOperand 2) := by
  simp [decode, ho, hn]

end known

end Sys2Proof

namespace Sys2Proof.Machine

open Sys2Proof.Statements

/-- The bytes from an address to the top of memory, inside and past the address space (spec R30). -/
theorem Memory.bytesFrom_inside (m : Memory) {a : Nat} (h : a ≤ 255) :
    (List.range' a (256 - a)).map m.read = m.read a :: (List.range' (a + 1) (256 - (a + 1))).map m.read := by
  rw [show 256 - a = 256 - (a + 1) + 1 by omega, List.range'_succ, List.map_cons]

theorem Memory.bytesFrom_outside (m : Memory) {a : Nat} (h : 255 < a) :
    (List.range' a (256 - a)).map m.read = [] := by
  simp [show 256 - a = 0 by omega]

theorem State.fetchOperand_absent (s : State) {n k : Nat} (hk : n < k) : s.fetchOperand n k = pure 0#8 := by
  rw [State.fetchOperand, if_neg (by omega)]

theorem State.fetchOperand_inside (s : State) {n k : Nat} (hk : k ≤ n) (h : s.pc + k ≤ 255) :
    s.fetchOperand n k = pure (s.mem.read (s.pc + k)) := by
  rw [State.fetchOperand, if_pos hk, State.fetchByte_inside s _ h]

theorem State.fetchOperand_outside (s : State) {n k : Nat} (hk : k ≤ n) (h : 255 < s.pc + k) :
    s.fetchOperand n k = throw (.outOfRangeAddress .fetch (s.pc + k : Nat)) := by
  rw [State.fetchOperand, if_pos hk, State.fetchByte_outside s _ h]

/-- Decoder and fetch answer the same instruction, or both answer an error. -/
theorem decoded_iff_fetched (i j : Instr) (bytes : List Byte) :
    (∃ rest, (.ok (i, bytes) : Except DecodeError (Instr × List Byte)) = .ok (j, rest)) ↔
      (pure i : Except ErrorKind Instr) = .ok j := by
  simp [pure, Except.pure]

theorem not_decoded_iff_not_fetched (e : DecodeError) (k : ErrorKind) (j : Instr) :
    (∃ rest, (.error e : Except DecodeError (Instr × List Byte)) = .ok (j, rest)) ↔
      (throw k : Except ErrorKind Instr) = .ok j := by
  simp [throw, throwThe, MonadExceptOf.throw]

/-- The agreement for a known opcode, by the number of its operand bytes and how many of them memory still holds. -/
theorem atPc_iff_fetchInstr_of_known {s : State} {o : Opcode} (i : Instr) (hpc : s.pc ≤ 255)
    (ho : Opcode.ofByte? (s.mem.read s.pc) = some o) : AtPc s i ↔ fetchInstr s = .ok i := by
  have hle := o.operandCount_le
  have hfetch := fetchInstr_known s hpc ho
  rw [← Opcode.byte_of_ofByte? ho] at hle hfetch
  rw [AtPc, hfetch, State.bytesFromPc, Memory.bytesFrom_inside _ hpc]
  obtain hn | hn | hn : operandCount (s.mem.read s.pc) = 0 ∨ operandCount (s.mem.read s.pc) = 1 ∨
      operandCount (s.mem.read s.pc) = 2 := by omega
  · rw [decode_no_operand ho hn, hn, s.fetchOperand_absent (by decide), s.fetchOperand_absent (by decide)]
    exact decoded_iff_fetched ..
  · by_cases h1 : s.pc + 1 ≤ 255
    · rw [Memory.bytesFrom_inside _ h1, decode_one_operand ho hn, hn, s.fetchOperand_inside (by decide) h1,
        s.fetchOperand_absent (by decide)]
      exact decoded_iff_fetched ..
    · rw [Memory.bytesFrom_outside _ (by omega), decode_missing_first ho (by omega), hn,
        s.fetchOperand_outside (by decide) (by omega)]
      exact not_decoded_iff_not_fetched ..
  · by_cases h1 : s.pc + 1 ≤ 255
    · rw [Memory.bytesFrom_inside _ h1, hn, s.fetchOperand_inside (by decide) h1]
      by_cases h2 : s.pc + 2 ≤ 255
      · rw [Memory.bytesFrom_inside _ h2, decode_two_operands ho hn, s.fetchOperand_inside (by decide) h2]
        exact decoded_iff_fetched ..
      · rw [Memory.bytesFrom_outside _ (by omega), decode_missing_second ho hn,
          s.fetchOperand_outside (by decide) (by omega)]
        exact not_decoded_iff_not_fetched ..
    · rw [Memory.bytesFrom_outside _ (by omega), decode_missing_first ho (by omega), hn,
        s.fetchOperand_outside (by decide) (by omega)]
      exact not_decoded_iff_not_fetched ..

/-- An instruction is fetched exactly when the decoder reads it at `pc` (spec R59, R70). -/
theorem atPc_iff_fetchInstr (s : State) (i : Instr) : AtPc s i ↔ fetchInstr s = .ok i := by
  by_cases hpc : s.pc ≤ 255
  · cases ho : Opcode.ofByte? (s.mem.read s.pc) with
    | none =>
      rw [AtPc, fetchInstr_unknown s hpc ho, State.bytesFromPc, Memory.bytesFrom_inside _ hpc, decode_unknown ho]
      simp
    | some o => exact atPc_iff_fetchInstr_of_known i hpc ho
  · rw [AtPc, fetchInstr_past_top s (by omega), State.bytesFromPc, Memory.bytesFrom_outside _ (by omega), decode]
    simp

end Sys2Proof.Machine
end

section
/-! PROOF. What an instruction and a step do to `run` and `err` (spec R18, R19, R110, R126). -/

namespace Sys2Proof.Machine

open Sys2Proof.Statements

/-- If the computation of an instruction ends in a state, that state has the `run` and `err` it started with. -/
def KeepsControl (s : State) (r : Except ErrorKind State) : Prop := ∀ t, r = .ok t → t.run = s.run ∧ t.err = s.err

theorem KeepsControl.ok {s t : State} (hrun : t.run = s.run) (herr : t.err = s.err) : KeepsControl s (.ok t) := by
  rintro _ ⟨⟩
  exact ⟨hrun, herr⟩

theorem KeepsControl.error (s : State) (k : ErrorKind) : KeepsControl s (.error k) := by
  rintro _ ⟨⟩

/-- It is enough that the rest of the computation keeps control after every answer of its first part. -/
theorem KeepsControl.bind {α : Type} {s : State} {x : Except ErrorKind α} {f : α → Except ErrorKind State}
    (h : ∀ a, x = .ok a → KeepsControl s (f a)) : KeepsControl s (x >>= f) := by
  cases x with
  | error k => exact .error s k
  | ok a => exact h a rfl

/-- What `commit` makes of such a computation: control as before, or an error entry (spec R126). -/
theorem sameControlOrRaised_of_commit {s t : State} {r : Except ErrorKind State} (h : s.commit r = .next t)
    (hr : KeepsControl s r) : SameControlOrRaised s t := by
  obtain hok | ⟨k, -, ht⟩ := State.commit_eq_next h
  · exact .inl (hr t hok)
  · exact .inr ⟨k, ht⟩

theorem State.decSp_keepsControl (s : State) : KeepsControl s s.decSp := by
  by_cases h : s.sp = 0#8
  · rw [s.decSp_of_eq h]; exact .error s _
  · rw [s.decSp_of_ne h]; exact .ok rfl rfl

theorem State.incSp_keepsControl (s : State) : KeepsControl s s.incSp := by
  by_cases h : s.sp = 255#8
  · rw [s.incSp_of_eq h]; exact .error s _
  · rw [s.incSp_of_ne h]; exact .ok rfl rfl

theorem jumpTo_keepsControl (s : State) (b : Byte) : KeepsControl s (jumpTo b s) :=
  .bind fun _ _ => .ok rfl rfl

theorem alu_run (op : AluOp) (a b : Reg) (s : State) : (alu op a b s).run = s.run := by
  cases op <;> simp [alu]

theorem alu_err (op : AluOp) (a b : Reg) (s : State) : (alu op a b s).err = s.err := by
  cases op <;> simp [alu]

/-- The shape of ADD, MUL and CMP (spec R87 to R89). -/
theorem aluInstr_sameControlOrRaised {op : AluOp} {op1 op2 : Byte} {s t : State} (h : aluInstr op op1 op2 s = .next t) :
    SameControlOrRaised s t := by
  refine sameControlOrRaised_of_commit h ?_
  exact .bind fun a _ => .bind fun b _ => .ok (alu_run op a b s) (alu_err op a b s)

/-- Every instruction but HLT leaves `run` and `err` alone, or raises (spec R110, R126). -/
theorem exec_sameControlOrRaised {i : Instr} {s t : State} (hi : i ≠ .hlt) (h : exec i s = .next t) :
    SameControlOrRaised s t := by
  cases i with
  | hlt => exact absurd rfl hi
  | add op1 op2 | mul op1 op2 | cmp op1 op2 => exact aluInstr_sameControlOrRaised h
  | ret =>
    refine sameControlOrRaised_of_commit h (.bind fun u hu => ?_)
    obtain ⟨hrun, herr⟩ := s.incSp_keepsControl u hu
    exact .ok hrun herr
  | push op1 =>
    refine sameControlOrRaised_of_commit h (.bind fun r _ => .bind fun u hu => ?_)
    obtain ⟨hrun, herr⟩ := s.decSp_keepsControl u hu
    exact .ok hrun herr
  | pop op1 =>
    refine sameControlOrRaised_of_commit h (.bind fun r _ => .bind fun u hu => ?_)
    obtain ⟨hrun, herr⟩ := State.incSp_keepsControl _ u hu
    exact .ok hrun herr
  | prn op1 =>
    refine sameControlOrRaised_of_commit h (.bind fun r _ => ?_)
    exact .ok rfl rfl
  | call op1 =>
    refine sameControlOrRaised_of_commit h (.bind fun r _ => .bind fun ra _ => .bind fun u hu => ?_)
    obtain ⟨hrun, herr⟩ := s.decSp_keepsControl u hu
    exact .ok hrun herr
  | jmp op1 => exact sameControlOrRaised_of_commit h (jumpTo_keepsControl s op1)
  | jeq op1 =>
    refine sameControlOrRaised_of_commit h ?_
    split_ifs
    · exact jumpTo_keepsControl s op1
    · exact .ok rfl rfl
  | jne op1 =>
    refine sameControlOrRaised_of_commit h ?_
    split_ifs
    · exact .ok rfl rfl
    · exact jumpTo_keepsControl s op1
  | ldi op1 op2 =>
    refine sameControlOrRaised_of_commit h (.bind fun r _ => ?_)
    exact .ok rfl rfl

/-- HLT: HALTED, nothing else changed (spec R110). -/
theorem exec_hlt (s : State) : exec .hlt s = .next { s with run := .halted } := rfl

/-- Everything a step can do to the control state: HLT was at `pc`, the step raised, or `run` and `err` are as before. -/
theorem step_control_cases {s t : State} (h : step s = .next t) :
    (AtPc s .hlt ∧ t = { s with run := .halted }) ∨ ¬ AtPc s .hlt ∧ SameControlOrRaised s t := by
  simp only [atPc_iff_fetchInstr]
  obtain ⟨-, ⟨k, hk, rfl⟩ | ⟨i, hi, hexec⟩⟩ := step_cases h
  · exact .inr ⟨by simp [hk], .inr ⟨k, rfl⟩⟩
  · by_cases hhlt : i = .hlt
    · subst hhlt
      rw [exec_hlt] at hexec
      exact .inl ⟨hi, by simpa using hexec.symm⟩
    · exact .inr ⟨by simp [hi, hhlt], exec_sameControlOrRaised hhlt hexec⟩

/-- A step ends in HALTED exactly when it executed HLT or raised (spec R18). -/
theorem step_halts_iff {s t : State} (h : step s = .next t) :
    t.run = .halted ↔ (AtPc s .hlt ∨ ∃ k, t = Raised s k) := by
  obtain ⟨hrunning, -⟩ := step_cases h
  constructor
  · intro hhalted
    obtain ⟨hhlt, -⟩ | ⟨-, ⟨hrun, -⟩ | hraised⟩ := step_control_cases h
    · exact .inl hhlt
    · rw [hrun, hrunning] at hhalted
      cases hhalted
    · exact .inr hraised
  · rintro (hhlt | ⟨k, rfl⟩)
    · obtain ⟨-, rfl⟩ | ⟨hnot, -⟩ := step_control_cases h
      · rfl
      · exact absurd hhlt hnot
    · rfl

/-- In HALTED the load is refused and no step exists: only the reset leads anywhere (spec R18, R75, R143). -/
theorem State.hostMove_of_halted {s t : State} {m : HostMove} (hs : s.run = .halted) (h : s.hostMove m = some t) :
    m = .reset ∧ t = State.reset := by
  cases m with
  | reset => exact ⟨rfl, by simpa [State.hostMove, State.resetMove] using h.symm⟩
  | load bytes =>
    have hne : s ≠ State.reset := by
      rintro rfl
      cases hs
    simp [State.hostMove, State.load, hne] at h
  | step => simp [State.hostMove, step, hs, nextState?] at h

end Sys2Proof.Machine

namespace Sys2Proof.Proofs

open Sys2Proof.Machine

/-- Settles O8: a step's effect on `run` by what was fetched; in HALTED, by the host's move. -/
theorem runChangesOnlyByHltOrRaise : Obligations.RunChangesOnlyByHltOrRaise :=
  ⟨rfl, fun _ _ h => ⟨(step_cases h).1, step_halts_iff h⟩, fun _ _ _ => State.hostMove_of_halted⟩

end Sys2Proof.Proofs
end

section
/-! PROOF. Reads and writes of memory through byte addresses (spec R32). -/

namespace Sys2Proof.Machine.State

/-- A read after a write, by byte address: the written value there, the old value elsewhere (spec R32). -/
theorem memRead_memWrite {s : State} (h : s.mem.wf) (a b v : Byte) :
    (s.memWrite a v).memRead b = if b = a then v else s.memRead b := by
  simp only [memRead, memWrite_mem, Memory.read_write s.mem h, BitVec.toNat_inj]

/-- Only memory differs after a write: with the old memory put back, the state is the old one (spec R32). -/
theorem memWrite_frame (s : State) (a v : Byte) : { s.memWrite a v with mem := s.mem } = s := rfl

/-- Every cell reads as its reset value after reset (spec R26). -/
theorem memRead_reset (a : Byte) : State.reset.memRead a = Config.memReset := Memory.read_nil a.toNat

end Sys2Proof.Machine.State

namespace Sys2Proof.Proofs

open Sys2Proof.Machine

/-- Settles O22: the law of a read after a write at the same and at another address, the frame of a write, and reset. -/
theorem memoryReadAfterWrite : Obligations.MemoryReadAfterWrite := by
  refine ⟨fun s a v hwf => ⟨?same, fun b hb => ?other, s.memWrite_frame a v⟩, State.memRead_reset⟩
  case same => rw [State.memRead_memWrite hwf, if_pos rfl]
  case other => rw [State.memRead_memWrite hwf, if_neg hb]

end Sys2Proof.Proofs
end

section
/-! PROOF. The opcode table as the decoder and the encoder use it: which bytes are opcodes, how long an encoding is, and that an
encoded instruction is decoded back (spec R50, R53, R63). -/

namespace Sys2Proof

/-- A byte selects a row exactly when it is that row's byte, in all eight bits (spec R53, R73). -/
theorem Opcode.ofByte?_eq_some_iff {b : Byte} {o : Opcode} : Opcode.ofByte? b = some o ↔ b = o.byte := by
  constructor
  · exact Opcode.byte_of_ofByte?
  · rintro rfl
    exact o.ofByte?_byte

/-- The bytes that select some row are the bytes of the table (spec R53, R55). -/
theorem Opcode.isSome_ofByte?_iff (b : Byte) : (Opcode.ofByte? b).isSome = true ↔ b ∈ Opcode.all.map Opcode.byte := by
  simp only [Opcode.ofByte?, List.find?_isSome, List.mem_map, beq_iff_eq]

/-- A number of two bits is at most 3 (spec R50). -/
theorem operandCount_le_three (b : Byte) : operandCount b ≤ 3 := by
  have := (b.extractLsb 7 6).isLt
  rw [operandCount_eq_bits]
  omega

/-- The opcode byte announces exactly the operand bytes the instruction has (spec R50, R53). -/
theorem Instr.operandCount_opcode : ∀ i : Instr, operandCount i.opcode.byte = i.operands.length
  | .hlt => Laws.Length.hlt
  | .ret => Laws.Length.ret
  | .push op1 => Laws.Length.push op1
  | .pop op1 => Laws.Length.pop op1
  | .prn op1 => Laws.Length.prn op1
  | .call op1 => Laws.Length.call op1
  | .jmp op1 => Laws.Length.jmp op1
  | .jeq op1 => Laws.Length.jeq op1
  | .jne op1 => Laws.Length.jne op1
  | .ldi op1 op2 => Laws.Length.ldi op1 op2
  | .add op1 op2 => Laws.Length.add op1 op2
  | .mul op1 op2 => Laws.Length.mul op1 op2
  | .cmp op1 op2 => Laws.Length.cmp op1 op2

/-- The length read off the opcode byte is the length of the whole encoding (spec R50). -/
theorem length_encode (i : Instr) : (encode i).length = instrLength i.opcode.byte := by
  rw [encode, List.length_cons, instrLength, i.operandCount_opcode]

/-- An instruction is its opcode with its operand bytes, 0 standing for an operand it does not have. -/
theorem Instr.toInstr_opcode_operands (i : Instr) :
    i.opcode.toInstr (i.operands.getD 0 0#8) (i.operands.getD 1 0#8) = i := by
  cases i <;> rfl

/-- An encoded instruction is decoded back, and the bytes after it are left over (spec R50, R63). -/
theorem decode_encode_append (i : Instr) (rest : List Byte) : decode (encode i ++ rest) = .ok (i, rest) := by
  have hsel := i.opcode.ofByte?_byte
  have hcount := i.operandCount_opcode
  have hinstr := i.toInstr_opcode_operands
  have hle := i.opcode.operandCount_le
  rw [encode]
  match hops : i.operands with
  | [] =>
    rw [hops] at hcount hinstr
    exact (decode_no_operand hsel hcount rest).trans (by simpa using hinstr)
  | [op1] =>
    rw [hops] at hcount hinstr
    exact (decode_one_operand hsel hcount op1 rest).trans (by simpa using hinstr)
  | [op1, op2] =>
    rw [hops] at hcount hinstr
    exact (decode_two_operands hsel hcount op1 op2 rest).trans (by simpa using hinstr)
  | op1 :: op2 :: op3 :: ops =>
    rw [hcount, hops, List.length_cons, List.length_cons, List.length_cons] at hle
    omega

/-- The decoder inverts the encoder (spec R50, R63). -/
theorem decode_encode (i : Instr) : decode (encode i) = .ok (i, []) := by
  simpa using decode_encode_append i []

end Sys2Proof

namespace Sys2Proof.Proofs

/-- Settles O1: each word written out in bits is the encoding of its instruction, which decodes back; the bytes that select a
row are the table's byte column. -/
theorem opcodeTableWordsDecode : Obligations.OpcodeTableWordsDecode := by
  refine ⟨fun a b => ?words, ?oneByte, ?twoBytes, ?threeBytes, Opcode.isSome_ofByte?_iff⟩
  case words =>
    exact ⟨decode_encode .hlt, decode_encode .ret, decode_encode (.push a), decode_encode (.pop a), decode_encode (.prn a),
      decode_encode (.call a), decode_encode (.jmp a), decode_encode (.jeq a), decode_encode (.jne a),
      decode_encode (.ldi a b), decode_encode (.add a b), decode_encode (.mul a b), decode_encode (.cmp a b)⟩
  case oneByte => decide
  case twoBytes => decide
  case threeBytes => decide

/-- Settles O2: an encoding is the opcode byte and the operand bytes that this byte's top two bits announce. -/
theorem topTwoBitsGiveOperandCountAndLength : Obligations.TopTwoBitsGiveOperandCountAndLength := by
  refine ⟨fun b => ⟨operandCount_eq_bits b, operandCount_le_three b, rfl⟩, fun i => ?encoding,
    fun _ _ => Opcode.ofByte?_eq_some_iff⟩
  case encoding => exact ⟨i.opcode.byte, i.operands, rfl, i.operandCount_opcode.symm, length_encode i⟩

end Sys2Proof.Proofs
end

section
/-! PROOF. What LDI does for each operand byte (spec R80). -/

namespace Sys2Proof.Machine

/-- LDI to a register: the register takes the literal and `pc` moves past the three bytes (spec R80). -/
theorem exec_ldi_legal (s : State) (op1 v : Byte) (r : Reg) (h : op1.toNat = r.val) :
    exec (.ldi op1 v) s = .next ((s.setReg r v).advance 3) := by
  rw [exec, execLdi, regIdx_legal op1 r h, except_pure_bind, State.commit_pure]

/-- LDI with an operand that names no register writes nothing and raises (spec R56, R80). -/
theorem exec_ldi_illegal (s : State) (op1 v : Byte) (h : 7 < op1.toNat) :
    exec (.ldi op1 v) s = .next (s.raise (.outOfRangeAddress .reg op1.toNat)) := by
  rw [exec, execLdi, regIdx_illegal op1 h, except_throw_bind, State.commit_throw]

end Sys2Proof.Machine

namespace Sys2Proof.Proofs

open Sys2Proof.Machine

/-- Settles O24: the word is the encoding of LDI; the operand byte names a register or is above 7. -/
theorem ldiLoadsTheLiteral : Obligations.LdiLoadsTheLiteral :=
  fun s op1 v => ⟨decode_encode (.ldi op1 v), exec_ldi_legal s op1 v, exec_ldi_illegal s op1 v⟩

end Sys2Proof.Proofs
end

section
/-! PROOF. What ADD and MUL do for each pair of operand bytes: the result to the first register modulo 256, the errors in the
order of the operands (spec R87, R88). -/

namespace Sys2Proof.Machine

/-- The operand errors of ADD, MUL and CMP, whatever the operation: the first byte above 7 is reported (spec R56, R87). -/
theorem aluInstr_operandErrors (op : AluOp) (s : State) (op1 op2 : Byte) :
    (7 < op1.toNat → aluInstr op op1 op2 s = .next (s.raise (.outOfRangeAddress .reg op1.toNat))) ∧
    (op1.toNat ≤ 7 → 7 < op2.toNat → aluInstr op op1 op2 s = .next (s.raise (.outOfRangeAddress .reg op2.toNat))) :=
  ⟨aluInstr_illegal_first op s op1 op2,
    fun h1 h2 => aluInstr_illegal_second op s op1 op2 ⟨op1.toNat, by omega⟩ rfl h2⟩

/-- ADD is the ALU's addition (spec R87). -/
theorem exec_add (s : State) (op1 op2 : Byte) : exec (.add op1 op2) s = aluInstr .add op1 op2 s := rfl

/-- MUL is the ALU's multiplication (spec R88). -/
theorem exec_mul (s : State) (op1 op2 : Byte) : exec (.mul op1 op2) s = aluInstr .mul op1 op2 s := rfl

/-- ADD of two registers: the first takes the eight-bit sum, `pc` moves past the three bytes (spec R87). -/
theorem exec_add_legal (s : State) (op1 op2 : Byte) (a b : Reg) (ha : op1.toNat = a.val) (hb : op2.toNat = b.val) :
    exec (.add op1 op2) s = .next ((s.setReg a (s.reg a + s.reg b)).advance 3) := by
  rw [exec_add, aluInstr_legal .add s op1 op2 a b ha hb, alu]

/-- MUL of two registers: the first takes the low byte of the product, `pc` moves past the three bytes (spec R88). -/
theorem exec_mul_legal (s : State) (op1 op2 : Byte) (a b : Reg) (ha : op1.toNat = a.val) (hb : op2.toNat = b.val) :
    exec (.mul op1 op2) s = .next ((s.setReg a (s.reg a * s.reg b)).advance 3) := by
  rw [exec_mul, aluInstr_legal .mul s op1 op2 a b ha hb, alu]

end Sys2Proof.Machine

namespace Sys2Proof.Proofs

open Sys2Proof.Machine

/-- Settles O26: the word is the encoding of ADD; the eight-bit sum is the sum modulo 256; the errors are every ALU
instruction's. -/
theorem addWrapsIntoTheFirstRegister : Obligations.AddWrapsIntoTheFirstRegister := by
  intro s op1 op2
  rw [exec_add]
  refine ⟨decode_encode (.add op1 op2), fun a b ha hb => ?legal, aluInstr_operandErrors .add s op1 op2⟩
  case legal => exact ⟨s.reg a + s.reg b, BitVec.toNat_add _ _, exec_add_legal s op1 op2 a b ha hb⟩

/-- Settles O27: the word is the encoding of MUL; the eight-bit product is the product modulo 256; the errors are every ALU
instruction's. -/
theorem mulKeepsTheLowByte : Obligations.MulKeepsTheLowByte := by
  intro s op1 op2
  rw [exec_mul]
  refine ⟨decode_encode (.mul op1 op2), fun a b ha hb => ?legal, aluInstr_operandErrors .mul s op1 op2⟩
  case legal => exact ⟨s.reg a * s.reg b, BitVec.toNat_mul _ _, exec_mul_legal s op1 op2 a b ha hb⟩

end Sys2Proof.Proofs
end

section
/-! PROOF. What JMP does for each operand byte (spec R102). -/

namespace Sys2Proof.Machine

/-- JMP to a register: `pc` takes the register's value, whatever the length of the instruction (spec R102). -/
theorem exec_jmp_legal (s : State) (op1 : Byte) (r : Reg) (h : op1.toNat = r.val) :
    exec (.jmp op1) s = .next (s.redirect (s.reg r)) := by
  rw [exec, execJmp, jumpTo_legal s op1 r h, State.commit_pure]

/-- JMP with an operand that names no register goes nowhere and raises (spec R56, R102). -/
theorem exec_jmp_illegal (s : State) (op1 : Byte) (h : 7 < op1.toNat) :
    exec (.jmp op1) s = .next (s.raise (.outOfRangeAddress .reg op1.toNat)) := by
  rw [exec, execJmp, jumpTo_illegal s op1 h, State.commit_throw]

end Sys2Proof.Machine

namespace Sys2Proof.Proofs

open Sys2Proof.Machine

/-- Settles O33: the word is the encoding of JMP; the operand byte names a register or is above 7. -/
theorem jmpRedirectsToTheRegister : Obligations.JmpRedirectsToTheRegister :=
  fun s op1 => ⟨decode_encode (.jmp op1), exec_jmp_legal s op1, exec_jmp_illegal s op1⟩

end Sys2Proof.Proofs
end

section
/-! PROOF. The status of a run is read from `run` and `err`, and a step gives the clean halt for HLT alone (spec R75, R147). -/

namespace Sys2Proof.Machine

open Sys2Proof.Statements

/-- Everything the host can learn of a run, and the values of `run` and `err` it is read from (spec R147). -/
theorem State.status_cases (s : State) :
    (s.run = .running ∧ s.status = .running) ∨ (s.run = .halted ∧ s.err = none ∧ s.status = .cleanHalt) ∨
      ∃ k, s.run = .halted ∧ s.err = some k ∧ s.status = .failed k := by
  cases hrun : s.run with
  | running => exact .inl ⟨rfl, by simp [status, hrun]⟩
  | halted =>
    cases herr : s.err with
    | none => exact .inr (.inl ⟨rfl, rfl, by simp [status, hrun, herr]⟩)
    | some k => exact .inr (.inr ⟨k, rfl, rfl, by simp [status, hrun, herr]⟩)

theorem State.status_eq_cleanHalt_iff (s : State) : s.status = .cleanHalt ↔ s.EndedCleanly := by
  obtain ⟨hrun, hstatus⟩ | ⟨hrun, herr, hstatus⟩ | ⟨k, hrun, herr, hstatus⟩ := s.status_cases <;> simp [EndedCleanly, *]

theorem State.status_eq_failed_iff (s : State) (k : ErrorKind) :
    s.status = .failed k ↔ s.run = .halted ∧ s.err = some k := by
  obtain ⟨hrun, hstatus⟩ | ⟨hrun, herr, hstatus⟩ | ⟨k, hrun, herr, hstatus⟩ := s.status_cases <;> simp [*]

theorem State.status_eq_running_iff (s : State) : s.status = .running ↔ s.run = .running := by
  obtain ⟨hrun, hstatus⟩ | ⟨hrun, herr, hstatus⟩ | ⟨k, hrun, herr, hstatus⟩ := s.status_cases <;> simp [*]

/-- A step from a state without an error ends the run cleanly exactly when it executed HLT (spec R75). -/
theorem step_endedCleanly_iff {s t : State} (hs : s.err = none) (h : step s = .next t) :
    t.EndedCleanly ↔ AtPc s .hlt := by
  obtain ⟨hhlt, rfl⟩ | ⟨hnot, -⟩ := step_control_cases h
  · exact ⟨fun _ => hhlt, fun _ => ⟨rfl, hs⟩⟩
  · refine ⟨fun ⟨hhalted, hclean⟩ => ?_, fun hhlt => absurd hhlt hnot⟩
    obtain hhlt | ⟨k, rfl⟩ := (step_halts_iff h).1 hhalted
    · exact hhlt
    · cases hclean

end Sys2Proof.Machine

namespace Sys2Proof.Proofs

open Sys2Proof.Machine

/-- Settles O48: the status by the cases of `run` and `err`; after a step, the clean halt is the clean end of the run, which only
HLT brings. -/
theorem statusTellsHowTheRunEnded : Obligations.StatusTellsHowTheRunEnded :=
  ⟨fun s => ⟨s.status_eq_cleanHalt_iff, s.status_eq_failed_iff, s.status_eq_running_iff⟩,
    fun _ t hs h => t.status_eq_cleanHalt_iff.trans (step_endedCleanly_iff hs h)⟩

end Sys2Proof.Proofs
end

section
/-! PROOF. The decoder reads back exactly the encodings (spec R50, R63). -/

namespace Sys2Proof

/-- The operand bytes an opcode's format has are kept, the others dropped (spec R51, R63). -/
theorem Opcode.operands_toInstr (o : Opcode) (op1 op2 : Byte) :
    (o.toInstr op1 op2).operands = [op1, op2].take (operandCount o.byte) := by
  cases o <;> rfl

theorem Opcode.encode_toInstr (o : Opcode) (op1 op2 : Byte) :
    encode (o.toInstr op1 op2) = o.byte :: [op1, op2].take (operandCount o.byte) := by
  rw [encode, Opcode.opcode_toInstr, Opcode.operands_toInstr]

/-- What the decoder reads is an encoding, with the bytes left over behind it (spec R50, R63). -/
theorem eq_encode_append_of_decode {bs rest : List Byte} {i : Instr} (h : decode bs = .ok (i, rest)) :
    bs = encode i ++ rest := by
  match bs with
  | [] => cases h
  | b :: bs =>
    cases ho : Opcode.ofByte? b with
    | none =>
      rw [decode_unknown ho] at h
      cases h
    | some o =>
      have hb := Opcode.byte_of_ofByte? ho
      have hle := o.operandCount_le
      rw [← hb] at hle
      obtain hn | hn | hn : operandCount b = 0 ∨ operandCount b = 1 ∨ operandCount b = 2 := by omega
      · rw [decode_no_operand ho hn] at h
        cases h
        rw [Opcode.encode_toInstr, ← hb, hn]
        rfl
      · match bs with
        | [] =>
          rw [decode_missing_first ho (by omega)] at h
          cases h
        | op1 :: bs =>
          rw [decode_one_operand ho hn] at h
          cases h
          rw [Opcode.encode_toInstr, ← hb, hn]
          rfl
      · match bs with
        | [] =>
          rw [decode_missing_first ho (by omega)] at h
          cases h
        | [op1] =>
          rw [decode_missing_second ho hn] at h
          cases h
        | op1 :: op2 :: bs =>
          rw [decode_two_operands ho hn] at h
          cases h
          rw [Opcode.encode_toInstr, ← hb, hn]
          rfl

/-- No two instructions share an encoding (spec R53, R63). -/
theorem encode_injective : Function.Injective encode := by
  intro i j h
  have hdecode := decode_encode i
  rw [h, decode_encode j] at hdecode
  simpa using hdecode.symm

end Sys2Proof

namespace Sys2Proof.Proofs

/-- Settles O3: one direction takes the decoder's cases back to the encoder, the other is the decoder on an encoding. -/
theorem decodeAndEncodeAgree : Obligations.DecodeAndEncodeAgree := by
  intro bs i rest
  constructor
  case mp => exact eq_encode_append_of_decode
  case mpr =>
    rintro rfl
    exact decode_encode_append i rest

end Sys2Proof.Proofs
end

section
/-! PROOF. Memory as data and the load: a write leaves every other cell in any memory, a canonical memory is determined by what
it reads, and bytes written at ascending addresses are read there (spec R11, R32, R143). -/

namespace Sys2Proof.Machine

/-- A write leaves every other cell, canonical memory or not (spec R32). -/
theorem Memory.read_write_other (m : Memory) {a b : Nat} (hb : b ≠ a) (v : Byte) : (m.write a v).read b = m.read b := by
  induction m with
  | nil => rw [Memory.write]; split_ifs <;> simp [Memory.read, hb.symm]
  | cons c m ih =>
    rw [Memory.write]
    split_ifs with h1 h2 h3 h4
    · rfl
    · simp [Memory.read, hb.symm]
    · rw [Memory.read, if_neg (h3 ▸ hb.symm)]
    · simp [Memory.read, hb.symm, ← h3]
    · rw [Memory.read, ih, ← Memory.read]

/-- The address of a canonical memory's first entry is below every later one, which therefore reads as its reset value. -/
theorem Memory.read_tail_head {c : Host.Cell} {m : Memory} (h : Memory.wf (c :: m)) : m.read c.1 = Config.memReset :=
  Memory.read_of_not_listed m c.1 fun d hd => ((List.pairwise_cons.1 h.1).1 d hd).ne'

theorem Memory.read_head (c : Host.Cell) (m : Memory) : Memory.read (c :: m) c.1 = c.2 := if_pos rfl

/-- A listed cell does not read as its reset value. -/
theorem Memory.read_head_ne {c : Host.Cell} {m : Memory} (h : Memory.wf (c :: m)) :
    Memory.read (c :: m) c.1 ≠ Config.memReset := by
  rw [Memory.read_head]
  exact (h.2 c List.mem_cons_self).2

/-- The first entries of two canonical memories that read alike have the same address: below its first entry a memory reads
its reset value, at it another. -/
theorem Memory.head_address_le {c d : Host.Cell} {m n : Memory} (hm : Memory.wf (c :: m)) (hn : Memory.wf (d :: n))
    (h : Memory.read (c :: m) c.1 = Memory.read (d :: n) c.1) : d.1 ≤ c.1 := by
  by_contra hlt
  exact Memory.read_head_ne hm (h.trans (Memory.read_below d n hn c.1 (by omega)))

/-- Canonical memories that read alike are the same list of cells. -/
theorem Memory.eq_of_read_eq {m n : Memory} (hm : m.wf) (hn : n.wf) (h : ∀ a < 256, m.read a = n.read a) : m = n := by
  induction m generalizing n with
  | nil =>
    cases n with
    | nil => rfl
    | cons d n => exact absurd (h d.1 (hn.2 d List.mem_cons_self).1).symm (Memory.read_head_ne hn)
  | cons c m ih =>
    have hc := (hm.2 c List.mem_cons_self).1
    cases n with
    | nil => exact absurd (h c.1 hc) (Memory.read_head_ne hm)
    | cons d n =>
      have hd := (hn.2 d List.mem_cons_self).1
      have haddr : c.1 = d.1 :=
        le_antisymm (Memory.head_address_le hn hm (h d.1 hd).symm) (Memory.head_address_le hm hn (h c.1 hc))
      have hbyte : c.2 = d.2 := by simpa [Memory.read, haddr] using h c.1 hc
      rw [ih (Memory.wf_tail hm) (Memory.wf_tail hn) fun a ha => ?tails, Prod.ext haddr hbyte]
      case tails =>
        by_cases hac : c.1 = a
        · rw [← hac, Memory.read_tail_head hm, haddr, Memory.read_tail_head hn]
        · have hread := h a ha
          rwa [Memory.read, Memory.read, if_neg hac, if_neg (haddr ▸ hac)] at hread

/-- Bytes written at ascending addresses leave the cells below them (spec R143). -/
theorem Memory.read_writeBytes_below (bs : List Byte) (m : Memory) {a b : Nat} (h : b < a) :
    (m.writeBytes a bs).read b = m.read b := by
  induction bs generalizing m a with
  | nil => rfl
  | cons v bs ih => rw [Memory.writeBytes, ih _ (by omega), Memory.read_write_other m (by omega)]

/-- Bytes written at ascending addresses are read there, and the cells above them are left (spec R143). -/
theorem Memory.read_writeBytes (bs : List Byte) {m : Memory} (hm : m.wf) {a : Nat} (ha : a + bs.length ≤ 256) (k : Nat) :
    (m.writeBytes a bs).read (a + k) = bs.getD k (m.read (a + k)) := by
  induction bs generalizing m a k with
  | nil => rfl
  | cons v bs ih =>
    rw [List.length_cons] at ha
    have hwrite := Memory.write_wf m hm a (show a < 256 by omega) v
    rw [Memory.writeBytes]
    cases k with
    | zero => rw [Memory.read_writeBytes_below bs _ (by omega), Memory.read_write m hm]; simp
    | succ k =>
      rw [show a + (k + 1) = a + 1 + k by omega, ih hwrite (by omega), Memory.read_write_other m (by omega)]
      simp

/-- The load of an image that fits, in the reset state, and every other load (spec R143). -/
theorem State.load_reset {bytes : List Byte} (h : bytes.length ≤ 256) :
    State.reset.load bytes = some { State.reset with mem := Memory.writeBytes [] 0 bytes } :=
  if_pos ⟨rfl, h⟩

theorem State.load_refused {s : State} {bytes : List Byte} (h : s ≠ State.reset ∨ 256 < bytes.length) :
    s.load bytes = none := by
  refine if_neg fun ⟨hs, hlen⟩ => ?_
  obtain hne | hlong := h
  · exact hne hs
  · exact absurd hlen (Nat.not_le.2 hlong)

end Sys2Proof.Machine

namespace Sys2Proof.Proofs

open Sys2Proof.Machine

/-- Settles O23: by induction on the lists, whose first entries agree in address and byte. -/
theorem canonicalMemoriesThatReadAlikeAreEqual : Obligations.CanonicalMemoriesThatReadAlikeAreEqual :=
  fun _ _ => Memory.eq_of_read_eq

/-- Settles O46: the load writes the image's bytes at ascending addresses from 0 into the empty memory. -/
theorem loadCopiesTheImageOrIsRefused : Obligations.LoadCopiesTheImageOrIsRefused := by
  refine ⟨fun bytes hlen => ⟨_, State.load_reset hlen, rfl, ?canonical, fun a => ?cells⟩, fun s bytes => State.load_refused⟩
  case canonical => exact Memory.writeBytes_wf bytes [] Memory.wf_nil 0 (by simpa using hlen)
  case cells =>
    have hread := Memory.read_writeBytes bytes Memory.wf_nil (a := 0) (by simpa using hlen) a
    rw [Nat.zero_add] at hread
    rw [hread]
    split_ifs with ha
    · simp [ha]
    · simpa using List.getD_eq_default _ _ (Nat.not_lt.1 ha)

end Sys2Proof.Proofs
end

section
/-! PROOF. The fetch part of a step by where the instruction lies: past the top of memory, unknown, cut off by the top, or
inside (spec R70 to R72), and the step that follows. -/

namespace Sys2Proof

/-- The opcode bytes written out in the statements are the table's byte column (spec R53, R55). -/
theorem Opcode.ofByte?_eq_none_of_not_mem {b : Byte} (h : b ∉ Opcode.all.map Opcode.byte) : Opcode.ofByte? b = none := by
  rwa [← Option.not_isSome_iff_eq_none, Opcode.isSome_ofByte?_iff]

/-- Operand bytes beyond the opcode's format make no difference (spec R51, R63). -/
theorem Opcode.toInstr_eq_of_take {o : Opcode} {a b a' b' : Byte}
    (h : [a, b].take (operandCount o.byte) = [a', b'].take (operandCount o.byte)) : o.toInstr a b = o.toInstr a' b' :=
  encode_injective (by rw [Opcode.encode_toInstr, Opcode.encode_toInstr, h])

end Sys2Proof

namespace Sys2Proof.Machine

open Sys2Proof.Statements

/-- Operand byte `k` is the first byte of the instruction at `pc` that lies past address 255 (spec R72). -/
structure CutOffAt (s : State) (o : Opcode) (k : Nat) : Prop where
  known : Opcode.ofByte? (s.mem.read s.pc) = some o
  pos : 1 ≤ k
  le_count : k ≤ operandCount (s.mem.read s.pc)
  before_inside : s.pc + (k - 1) ≤ 255
  outside : 255 < s.pc + k

theorem fetchInstr_cutOff {s : State} {o : Opcode} {k : Nat} (h : CutOffAt s o k) :
    fetchInstr s = .error (.outOfRangeAddress .fetch (s.pc + k : Nat)) := by
  obtain ⟨ho, hpos, hcount, hbefore, houtside⟩ := h
  have hle := o.operandCount_le
  rw [Opcode.byte_of_ofByte? ho] at hcount
  rw [fetchInstr_known s (by omega) ho]
  obtain rfl | rfl : k = 1 ∨ k = 2 := by omega
  · rw [s.fetchOperand_outside hcount houtside]
    rfl
  · rw [s.fetchOperand_inside (by omega) hbefore, s.fetchOperand_outside hcount houtside]
    rfl

/-- An operand byte of an instruction that fits below the top of memory; 0 stands for a byte it does not have (spec R72). -/
theorem State.fetchOperand_fits (s : State) {n : Nat} (h : s.pc + n ≤ 255) (k : Nat) :
    s.fetchOperand n k = pure (if k ≤ n then s.mem.read (s.pc + k) else 0#8) := by
  split_ifs with hk
  · exact s.fetchOperand_inside hk (by omega)
  · exact s.fetchOperand_absent (by omega)

/-- A known opcode whose operand bytes all lie in memory is fetched with them (spec R70, R72). -/
theorem fetchInstr_fits {s : State} {o : Opcode} (ho : Opcode.ofByte? (s.mem.read s.pc) = some o)
    (h : s.pc + operandCount (s.mem.read s.pc) ≤ 255) :
    fetchInstr s = .ok (o.toInstr (s.mem.read (s.pc + 1)) (s.mem.read (s.pc + 2))) := by
  rw [Opcode.byte_of_ofByte? ho] at h
  rw [fetchInstr_known s (by omega) ho, s.fetchOperand_fits h, s.fetchOperand_fits h, except_pure_bind, except_pure_bind]
  refine congrArg Except.ok (Opcode.toInstr_eq_of_take ?_)
  have hle := o.operandCount_le
  obtain hn | hn | hn : operandCount o.byte = 0 ∨ operandCount o.byte = 1 ∨ operandCount o.byte = 2 := by omega
  all_goals simp [hn]

/-- The four places an instruction can lie in (spec R70 to R72). -/
theorem fetch_cases (s : State) :
    255 < s.pc ∨ (s.pc ≤ 255 ∧ Opcode.ofByte? (s.mem.read s.pc) = none) ∨ (∃ o k, CutOffAt s o k) ∨
      ∃ o, Opcode.ofByte? (s.mem.read s.pc) = some o ∧ s.pc + operandCount (s.mem.read s.pc) ≤ 255 := by
  by_cases hpc : s.pc ≤ 255
  · cases ho : Opcode.ofByte? (s.mem.read s.pc) with
    | none => exact .inr (.inl ⟨hpc, rfl⟩)
    | some o =>
      by_cases hfits : s.pc + operandCount (s.mem.read s.pc) ≤ 255
      · exact .inr (.inr (.inr ⟨o, rfl, hfits⟩))
      · exact .inr (.inr (.inl ⟨o, 256 - s.pc, ho, by omega, by omega, by omega, by omega⟩))
  · exact .inl (by omega)

/-- Everything that can be wrong with a fetch (spec R71, R72). -/
theorem fetchInstr_error_cases {s : State} {e : ErrorKind} (h : fetchInstr s = .error e) :
    (255 < s.pc ∧ e = .outOfRangeAddress .fetch s.pc) ∨ e = .unknownOpcode (s.mem.read s.pc) ∨
      ∃ o k, CutOffAt s o k ∧ e = .outOfRangeAddress .fetch (s.pc + k : Nat) := by
  obtain hpc | ⟨hpc, ho⟩ | ⟨o, k, hcut⟩ | ⟨o, ho, hfits⟩ := fetch_cases s
  · rw [fetchInstr_past_top s hpc] at h
    exact .inl ⟨hpc, by simpa using h.symm⟩
  · rw [fetchInstr_unknown s hpc ho] at h
    exact .inr (.inl (by simpa using h.symm))
  · rw [fetchInstr_cutOff hcut] at h
    exact .inr (.inr ⟨o, k, hcut, by simpa using h.symm⟩)
  · rw [fetchInstr_fits ho hfits] at h
    cases h

/-- The fetch depends on memory and `pc` alone (spec R70). -/
theorem fetchInstr_congr {s s' : State} (hmem : s'.mem = s.mem) (hpc : s'.pc = s.pc) : fetchInstr s' = fetchInstr s := by
  simp only [fetchInstr, State.fetchOperand, State.fetchByte, hmem, hpc]

/-- A fetched instruction ends at or below the top of memory (spec R70, R72). -/
theorem length_encode_le_of_fetch {s : State} {i : Instr} (h : fetchInstr s = .ok i) :
    s.pc + (encode i).length ≤ 256 := by
  obtain ⟨rest, hdecode⟩ := (atPc_iff_fetchInstr s i).2 h
  have hlen := congrArg List.length (eq_encode_append_of_decode hdecode)
  have hpos : 0 < (encode i).length := Nat.succ_pos _
  simp only [State.bytesFromPc, List.length_map, List.length_range', List.length_append] at hlen
  omega

theorem step_halted {s : State} (h : s.run = .halted) : step s = .fault .halted := by
  simp only [step, h]

theorem step_past_top {s : State} (hrun : s.run = .running) (h : 255 < s.pc) :
    step s = .next (s.raise (.outOfRangeAddress .fetch s.pc)) :=
  step_of_fetch_error hrun (fetchInstr_past_top s h)

theorem step_unknown {s : State} (hrun : s.run = .running) (h : s.pc ≤ 255)
    (ho : Opcode.ofByte? (s.mem.read s.pc) = none) : step s = .next (s.raise (.unknownOpcode (s.mem.read s.pc))) :=
  step_of_fetch_error hrun (fetchInstr_unknown s h ho)

theorem step_cutOff {s : State} {o : Opcode} {k : Nat} (hrun : s.run = .running) (h : CutOffAt s o k) :
    step s = .next (s.raise (.outOfRangeAddress .fetch (s.pc + k : Nat))) :=
  step_of_fetch_error hrun (fetchInstr_cutOff h)

theorem step_fits {s : State} {o : Opcode} (hrun : s.run = .running) (ho : Opcode.ofByte? (s.mem.read s.pc) = some o)
    (h : s.pc + operandCount (s.mem.read s.pc) ≤ 255) :
    step s = exec (o.toInstr (s.mem.read (s.pc + 1)) (s.mem.read (s.pc + 2))) s :=
  step_of_fetch hrun (fetchInstr_fits ho h)

/-- The step of a RUNNING state fetches every byte from its memory, whatever that memory is written as (spec R42, R70). -/
theorem stepsOnBytes_of_read {byte : Nat → Byte} {t : State} (hrun : t.run = .running)
    (hread : ∀ a, t.mem.read a = byte a) : StepsOnBytes byte t := by
  obtain rfl : t.mem.read = byte := funext hread
  exact ⟨hread, step_past_top hrun, step_unknown hrun,
    fun _ _ ho hpos hle hbefore houtside => step_cutOff hrun ⟨ho, hpos, hle, hbefore, houtside⟩, fun _ => step_fits hrun⟩

end Sys2Proof.Machine

namespace Sys2Proof.Proofs

open Sys2Proof.Machine

/-- Settles O6: no step in HALTED; in RUNNING, the four places an instruction can lie in. -/
theorem stepFetchesDecodesExecutes : Obligations.StepFetchesDecodesExecutes :=
  fun _ => ⟨step_halted, fun hrun => (stepsOnBytes_of_read hrun fun _ => rfl).2⟩

/-- Settles O4: a byte outside the table selects no row, and the fetch stops there. -/
theorem unknownOpcodeRaisesOnByteZeroAlone : Obligations.UnknownOpcodeRaisesOnByteZeroAlone :=
  fun _ hrun hpc hmem => step_unknown hrun hpc (Opcode.ofByte?_eq_none_of_not_mem hmem)

/-- Settles O5: what the decoder reads at `pc` is what the step fetches. -/
theorem stepRunsTheDecodedInstruction : Obligations.StepRunsTheDecodedInstruction :=
  fun s i hrun hat => step_of_fetch hrun ((atPc_iff_fetchInstr s i).1 hat)

end Sys2Proof.Proofs
end

section
/-! PROOF. A word placed for the next fetch is what the decoder reads at `pc` (spec R59, R143; log 17). -/

namespace Sys2Proof

theorem length_wordBytes (n w : Nat) : (wordBytes n w).length = n := by
  induction n generalizing w with
  | zero => rfl
  | succ n ih => rw [wordBytes, List.length_cons, ih]

/-- A table word is as long as the longest instruction (spec R58). -/
theorem length_tableWordBytes (nbits w : Nat) : (tableWordBytes nbits w).length = 3 := length_wordBytes ..

theorem decode_of_decodeTableWord {nbits w : Nat} {i : Instr} (h : decodeTableWord nbits w = some i) :
    ∃ rest, decode (tableWordBytes nbits w) = .ok (i, rest) := by
  unfold decodeTableWord at h
  split at h
  · next j rest hdecode => exact ⟨rest, by rw [hdecode, Option.some.inj h]⟩
  · cases h

end Sys2Proof

namespace Sys2Proof.Machine

open Sys2Proof.Statements

/-- The placed word lies inside memory (log 17). -/
theorem State.fetchBase_le (s : State) : s.fetchBase + 3 ≤ 256 := by
  unfold State.fetchBase
  split_ifs with h
  · exact h
  · decide

/-- The bytes at `pc` begin with what memory reads there (spec R59). -/
theorem State.bytesFromPc_eq_append (s : State) {bs : List Byte} (hlen : s.pc + bs.length ≤ 256)
    (hread : ∀ k, (h : k < bs.length) → s.mem.read (s.pc + k) = bs[k]) :
    ∃ rest, s.bytesFromPc = bs ++ rest := by
  have hsplit : List.range' s.pc (256 - s.pc) =
      List.range' s.pc bs.length ++ List.range' (s.pc + bs.length) (256 - s.pc - bs.length) := by
    rw [List.range'_append_1]
    congr 1
    omega
  have hhead : (List.range' s.pc bs.length).map s.mem.read = bs :=
    List.ext_getElem (by simp) fun k _ hk => by simpa using hread k hk
  exact ⟨_, by rw [State.bytesFromPc, hsplit, List.map_append, hhead]⟩

/-- What bytes placed for the next fetch decode to is at `pc` (spec R59; log 17). -/
theorem atPc_placeAtFetch {s : State} {bs rest : List Byte} {i : Instr} (hwf : s.mem.wf) (hlen : bs.length = 3)
    (h : decode bs = .ok (i, rest)) : AtPc (s.placeAtFetch bs) i := by
  have hbase := s.fetchBase_le
  rw [← hlen] at hbase
  obtain ⟨more, hbytes⟩ := (s.placeAtFetch bs).bytesFromPc_eq_append hbase fun k hk => by
    exact (Memory.read_writeBytes bs hwf hbase k).trans (by simp [hk])
  rw [AtPc, hbytes, eq_encode_append_of_decode h, List.append_assoc]
  exact ⟨_, decode_encode_append i _⟩

end Sys2Proof.Machine

namespace Sys2Proof.Proofs

open Sys2Proof.Machine

/-- Settles O49: the placed word is read at `pc`, in a core that runs; it was written inside memory. -/
theorem placedWordIsRunByTheNextStep : Obligations.PlacedWordIsRunByTheNextStep := by
  intro s nbits w i hwf hword
  have hlen := length_tableWordBytes nbits w
  have hbase := s.fetchBase_le
  rw [← hlen] at hbase
  obtain ⟨rest, hdecode⟩ := decode_of_decodeTableWord hword
  exact ⟨stepRunsTheDecodedInstruction _ i rfl (atPc_placeAtFetch hwf hlen hdecode),
    Memory.writeBytes_wf _ s.mem hwf s.fetchBase hbase⟩

end Sys2Proof.Proofs
end

section
/-! PROOF. SP and R7: reading a register after a write to SP, and the two shapes in which the stack instructions use it
(spec R13, R95, R96). -/

namespace Sys2Proof.Machine.State

theorem reg_setSp (s : State) (v : Byte) (r : Reg) : (s.setSp v).reg r = if r = 7 then v else s.reg r := by
  rw [setSp, reg_setReg]
  simp only [eq_comm]

theorem reg_setSp_of_ne (s : State) (v : Byte) {r : Reg} (h : r ≠ 7) : (s.setSp v).reg r = s.reg r := by
  rw [reg_setSp, if_neg h]

theorem reg_setReg_of_ne (s : State) (v : Byte) {r q : Reg} (h : q ≠ r) : (s.setReg r v).reg q = s.reg q := by
  rw [reg_setReg, if_neg h.symm]

theorem sp_advance (s : State) (n : Nat) : (s.advance n).sp = s.sp := rfl

theorem sp_redirect (s : State) (v : Byte) : (s.redirect v).sp = s.sp := rfl

/-- PUSH and CALL: SP one lower, and a byte in the cell it then points to (spec R95, R100). -/
def stack (s : State) (v : Byte) : State := (s.setSp (s.sp - 1#8)).memWrite (s.sp - 1#8) v

@[simp] theorem stack_mem (s : State) (v : Byte) : (s.stack v).mem = s.mem.write (s.sp - 1#8).toNat v := rfl

@[simp] theorem stack_sp (s : State) (v : Byte) : (s.stack v).sp = s.sp - 1#8 := sp_setSp s _

theorem stack_reg_of_ne (s : State) (v : Byte) {r : Reg} (h : r ≠ 7) : (s.stack v).reg r = s.reg r :=
  reg_setSp_of_ne s _ h

/-- SP does not wrap: the cell below SP is the one at the decremented SP (spec R13). -/
theorem toNat_sp_sub_one {s : State} (h : s.sp ≠ 0#8) : (s.sp - 1#8).toNat = s.sp.toNat - 1 := by
  bv_omega

theorem toNat_sp_pos {s : State} (h : s.sp ≠ 0#8) : 0 < s.sp.toNat := by
  bv_omega

theorem stack_wf {s : State} (h : s.mem.wf) (v : Byte) : (s.stack v).mem.wf :=
  Memory.write_wf s.mem h _ (BitVec.isLt _) v

/-- The stacked byte is in the cell below the old SP, every other cell is as before (spec R32, R95). -/
theorem stack_read {s : State} (hwf : s.mem.wf) (hsp : s.sp ≠ 0#8) (v : Byte) (a : Nat) :
    (s.stack v).mem.read a = if a + 1 = s.sp.toNat then v else s.mem.read a := by
  have hpos := toNat_sp_pos hsp
  rw [stack_mem, Memory.read_write s.mem hwf, toNat_sp_sub_one hsp]
  congr 1
  exact propext (by omega)

theorem stack_read_below {s : State} (hwf : s.mem.wf) (hsp : s.sp ≠ 0#8) (v : Byte) :
    (s.stack v).mem.read (s.sp.toNat - 1) = v := by
  have hpos := toNat_sp_pos hsp
  rw [stack_read hwf hsp, if_pos (by omega)]

theorem stack_read_other {s : State} (hsp : s.sp ≠ 0#8) (v : Byte) {a : Nat} (ha : a ≠ s.sp.toNat - 1) :
    (s.stack v).mem.read a = s.mem.read a :=
  Memory.read_write_other s.mem (by rwa [toNat_sp_sub_one hsp]) v

/-- POP before the increment: the byte at SP in the named register (spec R96). -/
def loadTop (s : State) (r : Reg) : State := s.setReg r (s.memRead s.sp)

/-- SP as POP's increment finds it: the old SP, or for R7 the popped byte (spec R96; D19, log 12). -/
theorem loadTop_sp_of_ne (s : State) {r : Reg} (h : r ≠ 7) : (s.loadTop r).sp = s.sp := reg_setReg_of_ne s _ h.symm

theorem loadTop_sp_self (s : State) : (s.loadTop 7).sp = s.memRead s.sp := reg_setReg_self s 7 _

/-- POP and RET: SP one higher (spec R96, R101). -/
def popSp (s : State) : State := s.setSp (s.sp + 1#8)

end Sys2Proof.Machine.State
end

section
/-! PROOF. Every instruction by its operand bytes: the state it leaves, or the error it raises (spec R80 to R110). -/

namespace Sys2Proof.Machine

/-- An operand byte of at most 7 names a register (spec R56). -/
theorem exists_reg_of_le {b : Byte} (h : b.toNat ≤ 7) : ∃ r : Reg, b.toNat = r.val := ⟨⟨b.toNat, by omega⟩, rfl⟩

theorem exec_prn_legal (s : State) (op1 : Byte) (r : Reg) (h : op1.toNat = r.val) :
    exec (.prn op1) s = .next ((s.output (s.reg r)).advance 2) := by
  rw [exec, execPrn, regIdx_legal op1 r h, except_pure_bind, State.commit_pure]

theorem exec_prn_illegal (s : State) (op1 : Byte) (h : 7 < op1.toNat) :
    exec (.prn op1) s = .next (s.raise (.outOfRangeAddress .reg op1.toNat)) := by
  rw [exec, execPrn, regIdx_illegal op1 h, except_throw_bind, State.commit_throw]

theorem exec_cmp (s : State) (op1 op2 : Byte) : exec (.cmp op1 op2) s = aluInstr .cmp op1 op2 s := rfl

theorem exec_cmp_legal (s : State) (op1 op2 : Byte) (a b : Reg) (ha : op1.toNat = a.val) (hb : op2.toNat = b.val) :
    exec (.cmp op1 op2) s = .next ((s.compareFlags (s.reg a) (s.reg b)).advance 3) := by
  rw [exec_cmp, aluInstr_legal .cmp s op1 op2 a b ha hb, alu]

/-- A taken JEQ and a taken JNE are JMP (spec R102 to R104). -/
theorem exec_jeq_taken (s : State) (op1 : Byte) (h : s.flagE = true) : exec (.jeq op1) s = exec (.jmp op1) s := by
  rw [exec, exec, execJeq, if_pos h, execJmp]

theorem exec_jne_taken (s : State) (op1 : Byte) (h : s.flagE = false) : exec (.jne op1) s = exec (.jmp op1) s := by
  rw [exec, exec, execJne, h, if_neg Bool.false_ne_true, execJmp]

theorem exec_jeq_untaken (s : State) (op1 : Byte) (h : s.flagE = false) : exec (.jeq op1) s = .next (s.advance 2) := by
  rw [exec, execJeq, h, if_neg Bool.false_ne_true, State.commit_pure]

theorem exec_jne_untaken (s : State) (op1 : Byte) (h : s.flagE = true) : exec (.jne op1) s = .next (s.advance 2) := by
  rw [exec, execJne, if_pos h, State.commit_pure]

theorem exec_push_legal (s : State) (op1 : Byte) (r : Reg) (h : op1.toNat = r.val) (hsp : s.sp ≠ 0#8) :
    exec (.push op1) s = .next ((s.stack ((s.setSp (s.sp - 1#8)).reg r)).advance 2) := by
  rw [exec, execPush, regIdx_legal op1 r h, except_pure_bind, s.decSp_of_ne hsp, except_pure_bind, State.commit_pure,
    State.sp_setSp, State.stack]

theorem exec_push_empty (s : State) (op1 : Byte) (r : Reg) (h : op1.toNat = r.val) (hsp : s.sp = 0#8) :
    exec (.push op1) s = .next (s.raise (.outOfRangeAddress .sp (-1))) := by
  rw [exec, execPush, regIdx_legal op1 r h, except_pure_bind, s.decSp_of_eq hsp, except_throw_bind, State.commit_throw]

theorem exec_push_illegal (s : State) (op1 : Byte) (h : 7 < op1.toNat) :
    exec (.push op1) s = .next (s.raise (.outOfRangeAddress .reg op1.toNat)) := by
  rw [exec, execPush, regIdx_illegal op1 h, except_throw_bind, State.commit_throw]

theorem exec_pop_legal (s : State) (op1 : Byte) (r : Reg) (h : op1.toNat = r.val) (hsp : (s.loadTop r).sp ≠ 255#8) :
    exec (.pop op1) s = .next ((s.loadTop r).popSp.advance 2) := by
  rw [exec, execPop, regIdx_legal op1 r h, except_pure_bind, ← State.loadTop, State.incSp_of_ne _ hsp, except_pure_bind,
    State.commit_pure, State.popSp]

theorem exec_pop_full (s : State) (op1 : Byte) (r : Reg) (h : op1.toNat = r.val) (hsp : (s.loadTop r).sp = 255#8) :
    exec (.pop op1) s = .next (s.raise (.outOfRangeAddress .sp 256)) := by
  rw [exec, execPop, regIdx_legal op1 r h, except_pure_bind, ← State.loadTop, State.incSp_of_eq _ hsp, except_throw_bind,
    State.commit_throw]

theorem exec_pop_illegal (s : State) (op1 : Byte) (h : 7 < op1.toNat) :
    exec (.pop op1) s = .next (s.raise (.outOfRangeAddress .reg op1.toNat)) := by
  rw [exec, execPop, regIdx_illegal op1 h, except_throw_bind, State.commit_throw]

theorem exec_call_legal (s : State) (op1 : Byte) (r : Reg) (h : op1.toNat = r.val) (hpc : s.pc ≤ 253)
    (hsp : s.sp ≠ 0#8) : exec (.call op1) s =
      .next ((s.stack (BitVec.ofNat 8 (s.pc + 2))).redirect ((s.setSp (s.sp - 1#8)).reg r)) := by
  rw [exec, execCall, regIdx_legal op1 r h, except_pure_bind, returnAddress_fits s hpc, except_pure_bind,
    s.decSp_of_ne hsp, except_pure_bind, State.commit_pure, State.sp_setSp, State.stack, State.reg_memWrite]

theorem exec_call_empty (s : State) (op1 : Byte) (r : Reg) (h : op1.toNat = r.val) (hpc : s.pc ≤ 253)
    (hsp : s.sp = 0#8) : exec (.call op1) s = .next (s.raise (.outOfRangeAddress .sp (-1))) := by
  rw [exec, execCall, regIdx_legal op1 r h, except_pure_bind, returnAddress_fits s hpc, except_pure_bind,
    s.decSp_of_eq hsp, except_throw_bind, State.commit_throw]

theorem exec_call_returnAddress (s : State) (op1 : Byte) (r : Reg) (h : op1.toNat = r.val) (hpc : 253 < s.pc) :
    exec (.call op1) s = .next (s.raise (.outOfRangeAddress .retaddr (s.pc + 2 : Nat))) := by
  rw [exec, execCall, regIdx_legal op1 r h, except_pure_bind, returnAddress_raises s hpc, except_throw_bind,
    State.commit_throw]

theorem exec_call_illegal (s : State) (op1 : Byte) (h : 7 < op1.toNat) :
    exec (.call op1) s = .next (s.raise (.outOfRangeAddress .reg op1.toNat)) := by
  rw [exec, execCall, regIdx_illegal op1 h, except_throw_bind, State.commit_throw]

theorem exec_ret_legal (s : State) (h : s.sp ≠ 255#8) : exec .ret s = .next (s.popSp.redirect (s.memRead s.sp)) := by
  rw [exec, execRet, s.incSp_of_ne h, except_pure_bind, State.commit_pure, State.popSp]

theorem exec_ret_full (s : State) (h : s.sp = 255#8) : exec .ret s = .next (s.raise (.outOfRangeAddress .sp 256)) := by
  rw [exec, execRet, s.incSp_of_eq h, except_throw_bind, State.commit_throw]

end Sys2Proof.Machine
end

section
/-! PROOF. CMP sets exactly one flag, and the ALU's other operations write one register (spec R85, R89). -/

namespace Sys2Proof.Machine

open Sys2Proof.Statements

/-- After a comparison exactly one flag is set (spec R89). -/
theorem State.exactlyOneFlag_compareFlags (s : State) (p q : Byte) : ExactlyOneFlag (s.compareFlags p q) := by
  simp only [ExactlyOneFlag, compareFlags_flagL, compareFlags_flagG, compareFlags_flagE, decide_eq_true_eq,
    decide_eq_false_iff_not, BitVec.toNat_eq]
  omega

/-- With the old flags put back, a comparison has changed nothing (spec R85). -/
theorem State.compareFlags_frame (s : State) (p q : Byte) :
    { s.compareFlags p q with flagL := s.flagL, flagG := s.flagG, flagE := s.flagE } = s := by
  unfold compareFlags
  split_ifs <;> rfl

/-- A register write is undone by putting the old registers back. -/
theorem State.setReg_frame (s : State) (r : Reg) (v : Byte) : { s.setReg r v with regs := s.regs } = s := rfl

/-- ADD, SUB and MUL write their result to the first register and do nothing else (spec R85). -/
theorem alu_eq_setReg {op : AluOp} (h : op ≠ .cmp) (a b : Reg) (s : State) : ∃ v, alu op a b s = s.setReg a v := by
  cases op with
  | cmp => exact absurd rfl h
  | add | sub | mul => exact ⟨_, rfl⟩

/-- Eight-bit subtraction is the difference modulo 256 (spec R85). -/
theorem toNat_sub_eq_emod (p q : Byte) : ((p - q).toNat : Int) = ((p.toNat : Int) - q.toNat) % 256 := by
  rw [BitVec.toNat_sub]
  have hp := p.isLt
  have hq := q.isLt
  omega

end Sys2Proof.Machine

namespace Sys2Proof.Proofs

open Sys2Proof.Machine

/-- Settles O37: each operation's result in the first register; the bytes outside the table, SUB's 0xA1 among them. -/
theorem aluOperations : Obligations.AluOperations := by
  have hunknown : ∀ x : Byte, x ∉ Opcode.all.map Opcode.byte → ∀ rest, decode (x :: rest) = .error (.unknownOpcode x) :=
    fun x hx rest => decode_unknown (Opcode.ofByte?_eq_none_of_not_mem hx)
  refine ⟨fun s a b => ⟨?add, ?sub, ?mul, fun op hop => ?frame, State.compareFlags_flagL s _ _,
    State.compareFlags_flagG s _ _, State.compareFlags_flagE s _ _, s.compareFlags_frame _ _⟩, hunknown,
    hunknown 0xA1#8 (by decide)⟩
  case add => rw [alu, State.reg_setReg_self, BitVec.toNat_add]
  case sub => rw [alu, State.reg_setReg_self, toNat_sub_eq_emod]
  case mul => rw [alu, State.reg_setReg_self, BitVec.toNat_mul]
  case frame =>
    obtain ⟨v, hv⟩ := alu_eq_setReg hop a b s
    rw [hv]
    exact ⟨fun r hr => s.reg_setReg_of_ne v hr, s.setReg_frame a v⟩

/-- Settles O28: each flag of the comparison, and the errors of every ALU instruction. -/
theorem cmpComparesUnsigned : Obligations.CmpComparesUnsigned := by
  intro s op1 op2
  obtain ⟨hfirst, hsecond⟩ := aluInstr_operandErrors .cmp s op1 op2
  refine ⟨fun a b ha hb => ⟨_, exec_cmp_legal s op1 op2 a b ha hb, ?less, ?greater, ?equal,
    s.exactlyOneFlag_compareFlags _ _, ?frame⟩, hfirst, hsecond⟩
  case less => rw [State.advance_flagL, State.compareFlags_flagL, decide_eq_true_iff]
  case greater => rw [State.advance_flagG, State.compareFlags_flagG, decide_eq_true_iff]
  case equal => rw [State.advance_flagE, State.compareFlags_flagE, decide_eq_true_iff]
  case frame => exact State.ext_fields _ _ (by simp) (by simp) (by simp) rfl rfl rfl (by simp) (by simp) (by simp)

end Sys2Proof.Proofs
end

section
/-! PROOF. The statements of PRN, the stack and the jumps, from each instruction's equations (spec R81, R95 to R110). -/

namespace Sys2Proof.Machine

/-- A value added to the output is one more line of the host's text (spec R145). -/
theorem hostText_append_singleton (o : List Byte) (v : Byte) :
    hostText (o ++ [v]) = hostText o ++ Nat.toDigits 10 v.toNat ++ ['\n'] := by
  induction o with
  | nil => simp [hostText]
  | cons w o ih => simp [hostText, ih]

end Sys2Proof.Machine

namespace Sys2Proof.Proofs

open Sys2Proof.Machine

/-- Settles O25: the word is the encoding of PRN; the operand byte names a register or is above 7; PRN finds what LDI left. -/
theorem prnOutputsTheRegister : Obligations.PrnOutputsTheRegister := by
  refine fun s op1 => ⟨decode_encode (.prn op1), exec_prn_legal s op1, exec_prn_illegal s op1, fun r v h => ?afterLdi⟩
  case afterLdi =>
    refine ⟨_, _, exec_ldi_legal s op1 v r h, exec_prn_legal _ op1 r h, ?_⟩
    simp [hostText_append_singleton]

/-- Settles O29: the byte stacked is the register as it is after the decrement. -/
theorem pushStoresBelowTheStackPointer : Obligations.PushStoresBelowTheStackPointer := by
  intro s op1
  refine ⟨fun r hr hsp => ⟨_, exec_push_legal s op1 r hr hsp, ?sp, fun q hq => ?others, rfl,
    fun hwf => ?stacked, fun a ha => State.stack_read_other hsp _ ha, ⟨rfl, rfl, rfl⟩, rfl, rfl, rfl⟩,
    fun hle hsp => ?empty, exec_push_illegal s op1⟩
  case sp => rw [State.sp_advance, State.stack_sp, State.toNat_sp_sub_one hsp]
  case others => rw [State.reg_advance, s.stack_reg_of_ne _ hq]
  case stacked => rw [State.advance_mem, State.stack_read_below hwf hsp, State.reg_setSp]
  case empty =>
    obtain ⟨r, hr⟩ := exists_reg_of_le hle
    exact exec_push_empty s op1 r hr hsp

/-- Settles O30: the increment finds the old SP, for R7 the popped byte. -/
theorem popLoadsFromTheStackPointer : Obligations.PopLoadsFromTheStackPointer := by
  intro s op1
  refine ⟨fun r hr hne hsp => ?other, fun h7 hv => ?self, fun hlt hsp => ?full, fun h7 hv => ?selfFull,
    exec_pop_illegal s op1⟩
  case other =>
    have hload := s.loadTop_sp_of_ne hne
    rw [exec_pop_legal s op1 r hr (by rwa [hload]), State.popSp, hload]
    rfl
  case self =>
    subst h7
    rw [exec_pop_legal s 7#8 7 rfl (by rwa [s.loadTop_sp_self]), State.popSp, s.loadTop_sp_self]
    simp [State.advance, State.setPc, State.setSp, State.setReg, State.loadTop, State.memRead, Vector.set_set]
  case full =>
    have hne : (⟨op1.toNat, by omega⟩ : Reg) ≠ 7 := fun h => absurd (congrArg Fin.val h) (Nat.ne_of_lt hlt)
    exact exec_pop_full s op1 _ rfl (by rwa [s.loadTop_sp_of_ne hne])
  case selfFull =>
    subst h7
    exact exec_pop_full s 7#8 7 rfl (by rwa [s.loadTop_sp_self])

/-- Settles O31: the return address is the byte stacked; the errors come in the order of the checks. -/
theorem callStacksTheReturnAddress : Obligations.CallStacksTheReturnAddress := by
  intro s op1
  refine ⟨fun r hr hpc hsp => ⟨_, exec_call_legal s op1 r hr hpc hsp, ?sp, fun q hq => ?others, ?target,
    fun hwf => ?stacked, fun a ha => State.stack_read_other hsp _ ha, ⟨rfl, rfl, rfl⟩, rfl, rfl, rfl⟩,
    fun hle hpc hsp => ?empty, fun hle hpc => ?returnAddress, exec_call_illegal s op1⟩
  case sp => rw [State.sp_redirect, State.stack_sp, State.toNat_sp_sub_one hsp]
  case others => rw [State.reg_redirect, s.stack_reg_of_ne _ hq]
  case target => rw [State.redirect_pc, State.reg_setSp]
  case stacked =>
    rw [State.redirect_mem, State.stack_read_below hwf hsp, BitVec.toNat_ofNat]
    omega
  case empty =>
    obtain ⟨r, hr⟩ := exists_reg_of_le hle
    exact exec_call_empty s op1 r hr hpc hsp
  case returnAddress =>
    obtain ⟨r, hr⟩ := exists_reg_of_le hle
    rw [exec_call_returnAddress s op1 r hr (by omega), hpc]
    rfl

/-- Settles O32: RET by whether SP is 255. -/
theorem retPopsTheProgramCounter : Obligations.RetPopsTheProgramCounter :=
  fun s => ⟨exec_ret_legal s, exec_ret_full s⟩

/-- Settles O34: taken, JEQ is JMP; not taken, it does not look at its operand. -/
theorem jeqJumpsWhenEqual : Obligations.JeqJumpsWhenEqual :=
  fun s op1 => ⟨fun r hr hE => (exec_jeq_taken s op1 hE).trans (exec_jmp_legal s op1 r hr), exec_jeq_untaken s op1,
    fun h hE => (exec_jeq_taken s op1 hE).trans (exec_jmp_illegal s op1 h)⟩

/-- Settles O35: taken, JNE is JMP; not taken, it does not look at its operand. -/
theorem jneJumpsWhenNotEqual : Obligations.JneJumpsWhenNotEqual :=
  fun s op1 => ⟨fun r hr hE => (exec_jne_taken s op1 hE).trans (exec_jmp_legal s op1 r hr), exec_jne_untaken s op1,
    fun h hE => (exec_jne_taken s op1 hE).trans (exec_jmp_illegal s op1 h)⟩

/-- Settles O36: the meaning of HLT. -/
theorem hltOnlyHalts : Obligations.HltOnlyHalts := exec_hlt

/-- Settles O18: the reset record, field by field; its empty memory lists no cell. -/
theorem resetValues : Obligations.ResetValues :=
  ⟨rfl, rfl, rfl, by decide, rfl, rfl, rfl, Memory.read_nil, rfl, rfl⟩

end Sys2Proof.Proofs
end

section
/-! PROOF. Everything an instruction can do, said once: it completes with one state per form, or it raises one error for one
reason (spec R80 to R110, R122, R126). -/

namespace Sys2Proof.Machine

open Sys2Proof.Statements

/-- The state each instruction leaves when it does not raise, with the operands and the state it needs for that. -/
inductive Completes (s : State) : Instr → State → Prop
  | hlt : Completes s .hlt { s with run := .halted }
  | ret (hsp : s.sp ≠ 255#8) : Completes s .ret (s.popSp.redirect (s.memRead s.sp))
  | push {op1 : Byte} {r : Reg} (hr : op1.toNat = r.val) (hsp : s.sp ≠ 0#8) :
      Completes s (.push op1) ((s.stack ((s.setSp (s.sp - 1#8)).reg r)).advance 2)
  | pop {op1 : Byte} {r : Reg} (hr : op1.toNat = r.val) (hsp : (s.loadTop r).sp ≠ 255#8) :
      Completes s (.pop op1) ((s.loadTop r).popSp.advance 2)
  | prn {op1 : Byte} {r : Reg} (hr : op1.toNat = r.val) : Completes s (.prn op1) ((s.output (s.reg r)).advance 2)
  | call {op1 : Byte} {r : Reg} (hr : op1.toNat = r.val) (hpc : s.pc ≤ 253) (hsp : s.sp ≠ 0#8) :
      Completes s (.call op1) ((s.stack (BitVec.ofNat 8 (s.pc + 2))).redirect ((s.setSp (s.sp - 1#8)).reg r))
  | jmp {op1 : Byte} {r : Reg} (hr : op1.toNat = r.val) : Completes s (.jmp op1) (s.redirect (s.reg r))
  | jeqTaken {op1 : Byte} {r : Reg} (hE : s.flagE = true) (hr : op1.toNat = r.val) :
      Completes s (.jeq op1) (s.redirect (s.reg r))
  | jeqUntaken {op1 : Byte} (hE : s.flagE = false) : Completes s (.jeq op1) (s.advance 2)
  | jneTaken {op1 : Byte} {r : Reg} (hE : s.flagE = false) (hr : op1.toNat = r.val) :
      Completes s (.jne op1) (s.redirect (s.reg r))
  | jneUntaken {op1 : Byte} (hE : s.flagE = true) : Completes s (.jne op1) (s.advance 2)
  | ldi {op1 v : Byte} {r : Reg} (hr : op1.toNat = r.val) : Completes s (.ldi op1 v) ((s.setReg r v).advance 3)
  | add {op1 op2 : Byte} {a b : Reg} (ha : op1.toNat = a.val) (hb : op2.toNat = b.val) :
      Completes s (.add op1 op2) ((s.setReg a (s.reg a + s.reg b)).advance 3)
  | mul {op1 op2 : Byte} {a b : Reg} (ha : op1.toNat = a.val) (hb : op2.toNat = b.val) :
      Completes s (.mul op1 op2) ((s.setReg a (s.reg a * s.reg b)).advance 3)
  | cmp {op1 op2 : Byte} {a b : Reg} (ha : op1.toNat = a.val) (hb : op2.toNat = b.val) :
      Completes s (.cmp op1 op2) ((s.compareFlags (s.reg a) (s.reg b)).advance 3)

/-- Which instructions access the registers they name: all but a jump that is not taken (spec R103, R104; D12, log 11). -/
def AccessesRegisters (s : State) (i : Instr) : Prop :=
  (∀ b, i = .jeq b → s.flagE = true) ∧ ∀ b, i = .jne b → s.flagE = false

/-- The errors an instruction raises, each with its reason (spec R122). -/
inductive Raises (s : State) : Instr → ErrorKind → Prop
  | illegalFirst {i : Instr} {b : Byte} {bs : List Byte} (hops : i.registerOperands = b :: bs)
      (hacc : AccessesRegisters s i) (hb : 7 < b.toNat) : Raises s i (.outOfRangeAddress .reg b.toNat)
  | illegalSecond {i : Instr} {a b : Byte} {r : Reg} (hops : i.registerOperands = [a, b]) (ha : a.toNat = r.val)
      (hb : 7 < b.toNat) : Raises s i (.outOfRangeAddress .reg b.toNat)
  | pushEmpty {op1 : Byte} {r : Reg} (hr : op1.toNat = r.val) (hsp : s.sp = 0#8) :
      Raises s (.push op1) (.outOfRangeAddress .sp (-1))
  | callEmpty {op1 : Byte} {r : Reg} (hr : op1.toNat = r.val) (hpc : s.pc ≤ 253) (hsp : s.sp = 0#8) :
      Raises s (.call op1) (.outOfRangeAddress .sp (-1))
  | callReturn {op1 : Byte} {r : Reg} (hr : op1.toNat = r.val) (hpc : 253 < s.pc) :
      Raises s (.call op1) (.outOfRangeAddress .retaddr (s.pc + 2 : Nat))
  | popFull {op1 : Byte} {r : Reg} (hr : op1.toNat = r.val) (hsp : (s.loadTop r).sp = 255#8) :
      Raises s (.pop op1) (.outOfRangeAddress .sp 256)
  | retFull (hsp : s.sp = 255#8) : Raises s .ret (.outOfRangeAddress .sp 256)

/-- The relation is what `exec` computes. -/
theorem Completes.exec_eq {s t : State} {i : Instr} (h : Completes s i t) : exec i s = .next t := by
  cases h with
  | hlt => exact exec_hlt s
  | ret hsp => exact exec_ret_legal s hsp
  | push hr hsp => exact exec_push_legal s _ _ hr hsp
  | pop hr hsp => exact exec_pop_legal s _ _ hr hsp
  | prn hr => exact exec_prn_legal s _ _ hr
  | call hr hpc hsp => exact exec_call_legal s _ _ hr hpc hsp
  | jmp hr => exact exec_jmp_legal s _ _ hr
  | jeqTaken hE hr => exact (exec_jeq_taken s _ hE).trans (exec_jmp_legal s _ _ hr)
  | jeqUntaken hE => exact exec_jeq_untaken s _ hE
  | jneTaken hE hr => exact (exec_jne_taken s _ hE).trans (exec_jmp_legal s _ _ hr)
  | jneUntaken hE => exact exec_jne_untaken s _ hE
  | ldi hr => exact exec_ldi_legal s _ _ _ hr
  | add ha hb => exact exec_add_legal s _ _ _ _ ha hb
  | mul ha hb => exact exec_mul_legal s _ _ _ _ ha hb
  | cmp ha hb => exact exec_cmp_legal s _ _ _ _ ha hb

/-- The first register operand is checked before anything else of the instruction (spec R56). -/
theorem exec_illegalFirst {s : State} {i : Instr} {b : Byte} {bs : List Byte} (hops : i.registerOperands = b :: bs)
    (hacc : AccessesRegisters s i) (hb : 7 < b.toNat) : exec i s = .next (s.raise (.outOfRangeAddress .reg b.toNat)) := by
  obtain ⟨hjeq, hjne⟩ := hacc
  cases i <;> cases hops
  case push => exact exec_push_illegal s b hb
  case pop => exact exec_pop_illegal s b hb
  case prn => exact exec_prn_illegal s b hb
  case call => exact exec_call_illegal s b hb
  case jmp => exact exec_jmp_illegal s b hb
  case jeq => exact (exec_jeq_taken s b (hjeq b rfl)).trans (exec_jmp_illegal s b hb)
  case jne => exact (exec_jne_taken s b (hjne b rfl)).trans (exec_jmp_illegal s b hb)
  case ldi => exact exec_ldi_illegal s b _ hb
  case add => exact aluInstr_illegal_first .add s b _ hb
  case mul => exact aluInstr_illegal_first .mul s b _ hb
  case cmp => exact aluInstr_illegal_first .cmp s b _ hb

/-- The instructions with two register operands are ADD, MUL and CMP (spec R56, R87). -/
theorem exec_illegalSecond {s : State} {i : Instr} {a b : Byte} {r : Reg} (hops : i.registerOperands = [a, b])
    (ha : a.toNat = r.val) (hb : 7 < b.toNat) : exec i s = .next (s.raise (.outOfRangeAddress .reg b.toNat)) := by
  cases i <;> cases hops
  case add => exact aluInstr_illegal_second .add s a b r ha hb
  case mul => exact aluInstr_illegal_second .mul s a b r ha hb
  case cmp => exact aluInstr_illegal_second .cmp s a b r ha hb

/-- The reasons are those for which `exec` raises. -/
theorem Raises.exec_eq {s : State} {i : Instr} {k : ErrorKind} (h : Raises s i k) : exec i s = .next (s.raise k) := by
  cases h with
  | illegalFirst hops hacc hb => exact exec_illegalFirst hops hacc hb
  | illegalSecond hops ha hb => exact exec_illegalSecond hops ha hb
  | pushEmpty hr hsp => exact exec_push_empty s _ _ hr hsp
  | callEmpty hr hpc hsp => exact exec_call_empty s _ _ hr hpc hsp
  | callReturn hr hpc => exact exec_call_returnAddress s _ _ hr hpc
  | popFull hr hsp => exact exec_pop_full s _ _ hr hsp
  | retFull hsp => exact exec_ret_full s hsp

/-- An instruction whose first operand names a register completes or raises if it does so for every register; with an operand
above 7 it raises. -/
theorem completes_or_raises_of_first {s : State} {i : Instr} {b : Byte} {bs : List Byte}
    (hops : i.registerOperands = b :: bs) (hacc : AccessesRegisters s i)
    (h : ∀ r : Reg, b.toNat = r.val → (∃ t, Completes s i t) ∨ ∃ k, Raises s i k) :
    (∃ t, Completes s i t) ∨ ∃ k, Raises s i k := by
  obtain ⟨r, hr⟩ | hb := registerOperand_cases b
  · exact h r hr
  · exact .inr ⟨_, .illegalFirst hops hacc hb⟩

/-- The same for the instructions with two register operands. -/
theorem completes_or_raises_of_both {s : State} {i : Instr} {b c : Byte} (hops : i.registerOperands = [b, c])
    (hacc : AccessesRegisters s i)
    (h : ∀ p q : Reg, b.toNat = p.val → c.toNat = q.val → ∃ t, Completes s i t) :
    (∃ t, Completes s i t) ∨ ∃ k, Raises s i k :=
  completes_or_raises_of_first hops hacc fun p hp =>
    (registerOperand_cases c).imp (fun ⟨q, hq⟩ => h p q hp hq) fun hc => ⟨_, .illegalSecond hops hp hc⟩

/-- Every instruction completes or raises, in every state (spec R74). -/
theorem completes_or_raises (s : State) (i : Instr) : (∃ t, Completes s i t) ∨ ∃ k, Raises s i k := by
  cases i with
  | hlt => exact .inl ⟨_, .hlt⟩
  | ret =>
    by_cases hsp : s.sp = 255#8
    · exact .inr ⟨_, .retFull hsp⟩
    · exact .inl ⟨_, .ret hsp⟩
  | push op1 =>
    refine completes_or_raises_of_first rfl ⟨nofun, nofun⟩ fun r hr => ?_
    by_cases hsp : s.sp = 0#8
    · exact .inr ⟨_, .pushEmpty hr hsp⟩
    · exact .inl ⟨_, .push hr hsp⟩
  | pop op1 =>
    refine completes_or_raises_of_first rfl ⟨nofun, nofun⟩ fun r hr => ?_
    by_cases hsp : (s.loadTop r).sp = 255#8
    · exact .inr ⟨_, .popFull hr hsp⟩
    · exact .inl ⟨_, .pop hr hsp⟩
  | prn op1 => exact completes_or_raises_of_first rfl ⟨nofun, nofun⟩ fun r hr => .inl ⟨_, .prn hr⟩
  | call op1 =>
    refine completes_or_raises_of_first rfl ⟨nofun, nofun⟩ fun r hr => ?_
    by_cases hpc : s.pc ≤ 253
    · by_cases hsp : s.sp = 0#8
      · exact .inr ⟨_, .callEmpty hr hpc hsp⟩
      · exact .inl ⟨_, .call hr hpc hsp⟩
    · exact .inr ⟨_, .callReturn hr (by omega)⟩
  | jmp op1 => exact completes_or_raises_of_first rfl ⟨nofun, nofun⟩ fun r hr => .inl ⟨_, .jmp hr⟩
  | jeq op1 =>
    cases hE : s.flagE with
    | false => exact .inl ⟨_, .jeqUntaken hE⟩
    | true => exact completes_or_raises_of_first rfl ⟨fun _ _ => hE, nofun⟩ fun r hr => .inl ⟨_, .jeqTaken hE hr⟩
  | jne op1 =>
    cases hE : s.flagE with
    | false => exact completes_or_raises_of_first rfl ⟨nofun, fun _ _ => hE⟩ fun r hr => .inl ⟨_, .jneTaken hE hr⟩
    | true => exact .inl ⟨_, .jneUntaken hE⟩
  | ldi op1 v => exact completes_or_raises_of_first rfl ⟨nofun, nofun⟩ fun r hr => .inl ⟨_, .ldi hr⟩
  | add op1 op2 => exact completes_or_raises_of_both rfl ⟨nofun, nofun⟩ fun a b ha hb => ⟨_, .add ha hb⟩
  | mul op1 op2 => exact completes_or_raises_of_both rfl ⟨nofun, nofun⟩ fun a b ha hb => ⟨_, .mul ha hb⟩
  | cmp op1 op2 => exact completes_or_raises_of_both rfl ⟨nofun, nofun⟩ fun a b ha hb => ⟨_, .cmp ha hb⟩

/-- An answer of `exec` is the state of a completed instruction or an error entry on the state at the start. -/
theorem exec_cases {s t : State} {i : Instr} (h : exec i s = .next t) :
    Completes s i t ∨ ∃ k, Raises s i k ∧ t = s.raise k := by
  obtain ⟨u, hu⟩ | ⟨k, hk⟩ := completes_or_raises s i
  · rw [hu.exec_eq] at h
    cases h
    exact .inl hu
  · rw [hk.exec_eq] at h
    cases h
    exact .inr ⟨k, hk, rfl⟩

theorem exec_answers (s : State) (i : Instr) : ∃ t, exec i s = .next t :=
  (completes_or_raises s i).elim (fun ⟨_, h⟩ => ⟨_, h.exec_eq⟩) fun ⟨_, h⟩ => ⟨_, h.exec_eq⟩

/-- A completed instruction leaves the error latch (spec R19). -/
theorem Completes.err_eq {s t : State} {i : Instr} (h : Completes s i t) : t.err = s.err := by
  cases h with
  | cmp => exact s.compareFlags_err _ _
  | _ => rfl

/-- A completed instruction keeps the flags or leaves exactly one of them set (spec R17). -/
theorem Completes.flags {s t : State} {i : Instr} (h : Completes s i t) :
    SameFlags s t ∨ ExactlyOneFlag t := by
  cases h with
  | cmp => exact .inr (s.exactlyOneFlag_compareFlags _ _)
  | _ => exact .inl ⟨rfl, rfl, rfl⟩

/-- Only CMP writes the flags (spec R17). -/
theorem Completes.sameFlags {s t : State} {i : Instr} (h : Completes s i t) (hi : ∀ a b, i ≠ .cmp a b) :
    SameFlags s t := by
  cases h with
  | cmp => exact absurd rfl (hi _ _)
  | _ => exact ⟨rfl, rfl, rfl⟩

/-- Only PRN writes the output (spec R20). -/
theorem Completes.out_eq {s t : State} {i : Instr} (h : Completes s i t) (hi : ∀ b, i ≠ .prn b) : t.out = s.out := by
  cases h with
  | prn => exact absurd rfl (hi _)
  | cmp => exact s.compareFlags_out _ _
  | _ => rfl

/-- Only PUSH and CALL write memory (spec R30, R44). -/
theorem Completes.mem_eq {s t : State} {i : Instr} (h : Completes s i t) :
    t.mem = s.mem ∨ ((∃ b, i = .push b ∨ i = .call b) ∧ s.sp ≠ 0#8 ∧ ∃ v, t.mem = (s.stack v).mem) := by
  cases h with
  | push _ hsp => exact .inr ⟨⟨_, .inl rfl⟩, hsp, _, rfl⟩
  | call _ _ hsp => exact .inr ⟨⟨_, .inr rfl⟩, hsp, _, rfl⟩
  | cmp => exact .inl (s.compareFlags_mem _ _)
  | _ => exact .inl rfl

theorem Completes.sameMemory {s t : State} {i : Instr} (h : Completes s i t) (hi : ∀ b, i ≠ .push b ∧ i ≠ .call b) :
    SameMemory s t := by
  obtain hmem | ⟨⟨b, hpush | hcall⟩, -⟩ := h.mem_eq
  · intro a
    rw [hmem]
  · exact absurd hpush (hi b).1
  · exact absurd hcall (hi b).2

theorem Completes.mem_wf {s t : State} {i : Instr} (h : Completes s i t) (hwf : s.mem.wf) : t.mem.wf := by
  obtain hmem | ⟨-, -, v, hmem⟩ := h.mem_eq
  · rwa [hmem]
  · rw [hmem]
    exact State.stack_wf hwf v

/-- `pc` moves past the instruction, or goes to an address held in a byte, or stays for HLT (spec R15). -/
theorem Completes.pc_cases {s t : State} {i : Instr} (h : Completes s i t) :
    t.pc = s.pc + (encode i).length ∨ t.pc < 256 ∨ t.pc = s.pc := by
  cases h with
  | hlt => exact .inr (.inr rfl)
  | ret | call | jmp | jeqTaken | jneTaken => exact .inr (.inl (BitVec.isLt _))
  | cmp => exact .inl (congrArg (· + 3) (s.compareFlags_pc _ _))
  | _ => exact .inl rfl

/-- The registers each instruction can write: the first operand's for LDI, ADD, MUL and POP, and R7 for the four that use the
stack (spec R10, section 9). -/
def WritesRegister (i : Instr) (r : Reg) : Prop :=
  match i with
  | .ldi b _ | .add b _ | .mul b _ => r.val = b.toNat
  | .pop b => r = 7 ∨ r.val = b.toNat
  | .push _ | .call _ | .ret => r = 7
  | _ => False

theorem Completes.reg_eq {s t : State} {i : Instr} (h : Completes s i t) {r : Reg} (hr : ¬ WritesRegister i r) :
    t.reg r = s.reg r := by
  have hne {b : Byte} {q : Reg} (hq : b.toNat = q.val) (hrb : ¬ r.val = b.toNat) : r ≠ q := fun h => hrb (h ▸ hq.symm)
  cases h with
  | hlt | prn | jmp | jeqTaken | jeqUntaken | jneTaken | jneUntaken => rfl
  | ret => exact s.reg_setSp_of_ne _ hr
  | push => rw [State.reg_advance, s.stack_reg_of_ne _ hr]
  | call => rw [State.reg_redirect, s.stack_reg_of_ne _ hr]
  | pop hq =>
    obtain ⟨hr7, hrb⟩ := not_or.1 hr
    exact (State.reg_setSp_of_ne _ _ hr7).trans (s.reg_setReg_of_ne _ (hne hq hrb))
  | ldi hq => exact s.reg_setReg_of_ne _ (hne hq hr)
  | add ha => exact s.reg_setReg_of_ne _ (hne ha hr)
  | mul ha => exact s.reg_setReg_of_ne _ (hne ha hr)
  | cmp => simp only [State.reg, State.advance_regs, State.compareFlags_regs]

end Sys2Proof.Machine
end

section
/-! PROOF. The reasons of every error, and everything a step can do (spec R70, R122). -/

namespace Sys2Proof.Machine

open Sys2Proof.Statements

/-- An instruction with two register operands is no jump. -/
theorem accessesRegisters_of_two {s : State} {i : Instr} {a b : Byte} (hops : i.registerOperands = [a, b]) :
    AccessesRegisters s i := by
  constructor
  · rintro _ rfl
    cases hops
  · rintro _ rfl
    cases hops

/-- REG: a byte above 7 among the register operands, of an instruction that accesses them (spec R56, R122). -/
theorem Raises.reg_cause {s : State} {i : Instr} {v : Int} (h : Raises s i (.outOfRangeAddress .reg v)) :
    8 ≤ v ∧ v ≤ 255 ∧ (∃ b ∈ i.registerOperands, v = b.toNat) ∧ AccessesRegisters s i := by
  have hbounds {b : Byte} (hb : 7 < b.toNat) : 8 ≤ (b.toNat : Int) ∧ (b.toNat : Int) ≤ 255 := by
    have := b.isLt
    omega
  cases h with
  | illegalFirst hops hacc hb => exact ⟨(hbounds hb).1, (hbounds hb).2, ⟨_, by simp [hops], rfl⟩, hacc⟩
  | illegalSecond hops ha hb =>
    exact ⟨(hbounds hb).1, (hbounds hb).2, ⟨_, by simp [hops], rfl⟩, accessesRegisters_of_two hops⟩

/-- SP: a decrement from 0, or an increment from 255 (spec R13, R122). -/
theorem Raises.sp_cause {s : State} {i : Instr} {v : Int} (h : Raises s i (.outOfRangeAddress .sp v)) :
    (v = -1 ∧ s.sp = 0#8 ∧ ∃ b, i = .push b ∨ i = .call b) ∨
      (v = 256 ∧ ((s.sp = 255#8 ∧ i = .ret) ∨ (∃ b, i = .pop b ∧ b ≠ 7#8 ∧ s.sp = 255#8) ∨
        (i = .pop 7#8 ∧ s.memRead s.sp = 255#8))) := by
  cases h with
  | pushEmpty _ hsp => exact .inl ⟨rfl, hsp, _, .inl rfl⟩
  | callEmpty _ _ hsp => exact .inl ⟨rfl, hsp, _, .inr rfl⟩
  | retFull hsp => exact .inr ⟨rfl, .inl ⟨hsp, rfl⟩⟩
  | @popFull b r hr hsp =>
    by_cases hr7 : r = 7
    · subst hr7
      obtain rfl : b = 7#8 := BitVec.eq_of_toNat_eq hr
      exact .inr ⟨rfl, .inr (.inr ⟨rfl, by rwa [s.loadTop_sp_self] at hsp⟩)⟩
    · have hb : b ≠ 7#8 := by
        rintro rfl
        exact hr7 (Fin.ext hr.symm)
      exact .inr ⟨rfl, .inr (.inl ⟨b, rfl, hb, by rwa [s.loadTop_sp_of_ne hr7] at hsp⟩)⟩

/-- RETADDR: a CALL above address 253 (spec R100, R122). -/
theorem Raises.retaddr_cause {s : State} {i : Instr} {v : Int} (h : Raises s i (.outOfRangeAddress .retaddr v)) :
    v = (s.pc + 2 : Nat) ∧ 253 < s.pc ∧ ∃ b, i = .call b := by
  cases h with
  | callReturn _ hpc => exact ⟨rfl, hpc, _, rfl⟩

/-- What instructions raise is OutOfRangeAddress, and no FETCH (spec R122, R123). -/
theorem Raises.not_fetch {s : State} {i : Instr} {v : Int} : ¬ Raises s i (.outOfRangeAddress .fetch v) := nofun

theorem Raises.not_unsupported {s : State} {i : Instr} : ¬ Raises s i .unsupportedALUOperation := nofun

theorem fetchInstr_not_unsupported {s : State} : fetchInstr s ≠ .error .unsupportedALUOperation := by
  intro h
  obtain ⟨-, h⟩ | h | ⟨_, _, -, h⟩ := fetchInstr_error_cases h <;> cases h

/-- HLT and RET have no operand byte to be cut off (spec R53). -/
theorem CutOffAt.has_operand {s : State} {o : Opcode} {k : Nat} (h : CutOffAt s o k) : o ≠ .hlt ∧ o ≠ .ret := by
  have hcount : operandCount o.byte ≠ 0 := by
    have hpos := h.pos
    have hle := h.le_count
    rw [Opcode.byte_of_ofByte? h.known] at hle
    omega
  constructor
  · rintro rfl
    exact hcount rfl
  · rintro rfl
    exact hcount rfl

/-- FETCH: in a state with `pc` at most 256, the address is 256 (spec R71, R72, R122). -/
theorem fetchInstr_outOfRange_cause {s : State} {what : AccessKind} {v : Int} (hpc : s.pc ≤ 256)
    (h : fetchInstr s = .error (.outOfRangeAddress what v)) :
    what = .fetch ∧ v = 256 ∧ (s.pc = 256 ∨ ∃ o k, CutOffAt s o k ∧ s.pc + k = 256) := by
  obtain ⟨htop, h⟩ | h | ⟨o, k, hcut, h⟩ := fetchInstr_error_cases h
  · cases h
    exact ⟨rfl, by omega, .inl (by omega)⟩
  · cases h
  · cases h
    have hbefore := hcut.before_inside
    have houtside := hcut.outside
    exact ⟨rfl, by omega, .inr ⟨o, k, hcut, by omega⟩⟩

/-- A step raises in the fetch, or the fetched instruction raises. -/
def StepRaises (s : State) (k : ErrorKind) : Prop := fetchInstr s = .error k ∨ ∃ i, AtPc s i ∧ Raises s i k

/-- Everything a step can do: an error entry for one of the reasons above, or the state of the completed instruction. -/
theorem step_outcomes {s t : State} (h : step s = .next t) :
    (∃ k, StepRaises s k ∧ t = s.raise k) ∨ ∃ i, AtPc s i ∧ Completes s i t := by
  obtain ⟨-, ⟨k, hk, ht⟩ | ⟨i, hi, hexec⟩⟩ := step_cases h
  · exact .inl ⟨k, .inl hk, ht⟩
  · rw [← atPc_iff_fetchInstr] at hi
    obtain hcompletes | ⟨k, hk, ht⟩ := exec_cases hexec
    · exact .inr ⟨i, hi, hcompletes⟩
    · exact .inl ⟨k, .inr ⟨i, hi, hk⟩, ht⟩

/-- The latch after a step is the old one, or the step raised what is in it (spec R19, R126). -/
theorem step_err {s t : State} (h : step s = .next t) : t.err = s.err ∨ ∃ k, StepRaises s k ∧ t.err = some k := by
  obtain ⟨k, hk, rfl⟩ | ⟨i, -, hcompletes⟩ := step_outcomes h
  · exact .inr ⟨k, hk, rfl⟩
  · exact .inl hcompletes.err_eq

/-- In RUNNING a step answers a next state (spec R70, R74). -/
theorem step_answers {s : State} (h : s.run = .running) : ∃ t, step s = .next t := by
  cases hfetch : fetchInstr s with
  | error k => exact ⟨_, step_of_fetch_error h hfetch⟩
  | ok i =>
    rw [step_of_fetch h hfetch]
    exact exec_answers s i

/-- Two instructions at the same `pc` are one. -/
theorem atPc_unique {s : State} {i j : Instr} (hi : AtPc s i) (hj : AtPc s j) : i = j := by
  rw [atPc_iff_fetchInstr] at hi hj
  rw [hi] at hj
  exact Except.ok.inj hj

end Sys2Proof.Machine

namespace Sys2Proof.Proofs

open Sys2Proof.Machine Sys2Proof.Statements

/-- Settles O7: in RUNNING every fetch and every instruction answers; in HALTED the step is the fault. -/
theorem stepAnswersExactlyWhenRunning : Obligations.StepAnswersExactlyWhenRunning := by
  intro s
  cases hrun : s.run with
  | running =>
    obtain ⟨t, ht⟩ := step_answers hrun
    simp [ht]
  | halted => simp [step_halted hrun]

/-- Settles O9: the clean end of a run by what the step did to `run` and `err`. -/
theorem cleanEndExactlyAfterHlt : Obligations.CleanEndExactlyAfterHlt := fun _ _ => step_endedCleanly_iff

/-- Settles O10: a completed instruction keeps the empty latch, so the step raised. -/
theorem errorsArePrecise : Obligations.ErrorsArePrecise := by
  intro s t k hs h hk
  obtain ⟨k', -, rfl⟩ | ⟨i, -, hcompletes⟩ := step_outcomes h
  · cases hk
    rfl
  · rw [hcompletes.err_eq, hs] at hk
    cases hk

/-- Settles O12: neither the fetch nor an instruction raises it. -/
theorem unsupportedAluOperationNeverRaised : Obligations.UnsupportedAluOperationNeverRaised := by
  intro s t hs h ht
  obtain herr | ⟨k, hk, herr⟩ := step_err h
  · exact hs (herr ▸ ht)
  · rw [ht] at herr
    cases herr
    obtain hfetch | ⟨i, -, hraises⟩ := hk
    · exact fetchInstr_not_unsupported hfetch
    · exact Raises.not_unsupported hraises

/-- Settles O13: the reason of a REG error is a register operand above 7. -/
theorem wellFormedInstructionsNeverRaiseReg : Obligations.WellFormedInstructionsNeverRaiseReg := by
  intro i s t v hwf hs h ht
  obtain hcompletes | ⟨k, hraises, rfl⟩ := exec_cases h
  · rw [hcompletes.err_eq, hs] at ht
    cases ht
  · cases ht
    obtain ⟨hv, -, ⟨b, hb, rfl⟩, -⟩ := hraises.reg_cause
    have hlegal : b.toNat ≤ 7 := by simpa [registerOperandOk] using List.all_eq_true.1 hwf b hb
    omega

/-- Settles O14: a completed instruction's new `pc`, form by form. -/
theorem programCounterTable : Obligations.ProgramCounterTable := by
  intro i s t h
  obtain hcompletes | ⟨k, -, ht⟩ := exec_cases h
  · refine .inr ?_
    cases hcompletes with
    | hlt | ret | push | pop | prn | ldi | add | mul => rfl
    | cmp => exact congrArg (· + 3) (s.compareFlags_pc _ _)
    | call hr | jmp hr => exact ⟨_, hr, rfl⟩
    | jeqTaken hE hr => simpa [hE] using ⟨_, hr, rfl⟩
    | jneTaken hE hr => simpa [hE] using ⟨_, hr, rfl⟩
    | jeqUntaken hE | jneUntaken hE => simp [hE]
  · exact .inl ⟨k, ht⟩

/-- Settles O11: the latch was empty, so the step raised; FETCH comes from the fetch alone, the others from the instruction at
`pc`. -/
theorem outOfRangeCausesAreComplete : Obligations.OutOfRangeCausesAreComplete := by
  intro s t what v hpc hs h ht
  have hraised : StepRaises s (.outOfRangeAddress what v) := by
    obtain herr | ⟨k, hk, herr⟩ := step_err h
    · simp [ht, hs] at herr
    · rw [ht] at herr
      cases herr
      exact hk
  obtain hfetch | ⟨i, hat, hraises⟩ := hraised
  · obtain ⟨rfl, hv, htop | ⟨o, k, hcut, hk⟩⟩ := fetchInstr_outOfRange_cause hpc hfetch
    · exact ⟨hv, .inl htop⟩
    · obtain ⟨hhlt, hret⟩ := hcut.has_operand
      exact ⟨hv, .inr ⟨o, k, hcut.known, hhlt, hret, hcut.pos, hcut.le_count, hk⟩⟩
  · cases what with
    | fetch => exact absurd hraises Raises.not_fetch
    | reg =>
      obtain ⟨hlow, hhigh, hb, hjeq, hjne⟩ := hraises.reg_cause
      exact ⟨hlow, hhigh, i, hat, hb, hjeq, hjne⟩
    | retaddr =>
      obtain ⟨rfl, hlow, b, rfl⟩ := hraises.retaddr_cause
      have hend := length_encode_le_of_fetch ((atPc_iff_fetchInstr s _).1 hat)
      have h254 : s.pc = 254 := Nat.le_antisymm (Nat.le_of_add_le_add_right hend) hlow
      exact ⟨by rw [h254]; rfl, h254, b, hat⟩
    | sp =>
      obtain ⟨hv, hsp, b, rfl | rfl⟩ | ⟨hv, ⟨hsp, rfl⟩ | ⟨b, rfl, hb, hsp⟩ | ⟨rfl, hread⟩⟩ := hraises.sp_cause
      · exact .inl ⟨hv, hsp, b, .inl hat⟩
      · exact .inl ⟨hv, hsp, b, .inr hat⟩
      · exact .inr ⟨hv, .inl ⟨hsp, hat⟩⟩
      · exact .inr ⟨hv, .inr (.inl ⟨b, hat, hb, hsp⟩)⟩
      · exact .inr ⟨hv, .inr (.inr ⟨hat, hread⟩)⟩

end Sys2Proof.Proofs
end

section
/-! PROOF. The invariant: every step keeps it, so every state the host can bring the core to meets it (spec R10, R148). -/

namespace Sys2Proof.Machine

open Sys2Proof.Statements

theorem flags_exclusive_of_exactlyOneFlag {t : State} (h : ExactlyOneFlag t) :
    ¬ (t.flagL ∧ t.flagG) ∧ ¬ (t.flagL ∧ t.flagE) ∧ ¬ (t.flagG ∧ t.flagE) := by
  obtain ⟨hL, hG, hE⟩ | ⟨hL, hG, hE⟩ | ⟨hL, hG, hE⟩ := h <;> simp [hL, hG, hE]

namespace State.Inv

theorem reset : State.reset.Inv where
  mem_wf := Memory.wf_nil
  pc_le := Nat.zero_le 256
  flags_exclusive := by decide
  err_halted := fun h => absurd rfl h

theorem err_eq_none {s : State} (hs : s.Inv) (hrun : s.run = .running) : s.err = none := by
  by_contra herr
  cases hrun.symm.trans (hs.err_halted herr)

theorem raise {s : State} (hs : s.Inv) (k : ErrorKind) : (s.raise k).Inv where
  mem_wf := hs.mem_wf
  pc_le := hs.pc_le
  flags_exclusive := hs.flags_exclusive
  err_halted := fun _ => rfl

/-- An instruction that ends inside memory and completes keeps the invariant; for that the latch must be empty before it. -/
theorem completes {s t : State} {i : Instr} (hs : s.Inv) (herr : s.err = none) (hend : s.pc + (encode i).length ≤ 256)
    (h : Completes s i t) : t.Inv where
  mem_wf := h.mem_wf hs.mem_wf
  pc_le := by
    have hpc := hs.pc_le
    obtain hnext | hbyte | hsame := h.pc_cases <;> omega
  flags_exclusive := by
    obtain ⟨hL, hG, hE⟩ | hone := h.flags
    · rw [hL, hG, hE]
      exact hs.flags_exclusive
    · exact flags_exclusive_of_exactlyOneFlag hone
  err_halted := fun hne => absurd (h.err_eq.trans herr) hne

theorem step {s t : State} (hs : s.Inv) (h : step s = .next t) : t.Inv := by
  obtain ⟨hrun, -⟩ := step_cases h
  obtain ⟨k, -, rfl⟩ | ⟨i, hat, hcompletes⟩ := step_outcomes h
  · exact hs.raise k
  · exact hs.completes (hs.err_eq_none hrun) (length_encode_le_of_fetch ((atPc_iff_fetchInstr s i).1 hat)) hcompletes

theorem load {s t : State} {bytes : List Byte} (hs : s.Inv) (h : s.load bytes = some t) : t.Inv := by
  unfold State.load at h
  split_ifs at h with hload
  cases h
  obtain ⟨-, hlen⟩ := hload
  exact {
    mem_wf := Memory.writeBytes_wf bytes s.mem hs.mem_wf 0 (by rwa [Nat.zero_add])
    pc_le := hs.pc_le
    flags_exclusive := hs.flags_exclusive
    err_halted := hs.err_halted }

theorem hostMove {s t : State} {m : HostMove} (hs : s.Inv) (h : s.hostMove m = some t) : t.Inv := by
  cases m with
  | reset =>
    cases h
    exact State.Inv.reset
  | load bytes => exact hs.load h
  | step =>
    rw [State.hostMove] at h
    cases hstep : Machine.step s with
    | next u =>
      rw [hstep] at h
      cases h
      exact hs.step hstep
    | fault _ | refused _ =>
      rw [hstep] at h
      cases h

end State.Inv

end Sys2Proof.Machine

namespace Sys2Proof.Proofs

open Sys2Proof.Machine

/-- Settles O15: the reset record, clause by clause. -/
theorem resetMeetsInvariant : Obligations.ResetMeetsInvariant := State.Inv.reset

/-- Settles O16: a raise keeps every clause; a completed instruction ended inside memory, in a state without an error. -/
theorem stepKeepsInvariant : Obligations.StepKeepsInvariant := fun _ _ => State.Inv.step

/-- Settles O17: by induction on the host's moves. -/
theorem reachableStatesMeetInvariant : Obligations.ReachableStatesMeetInvariant := by
  intro s hs
  induction hs with
  | reset => exact State.Inv.reset
  | move s t m _ hmove ih => exact ih.hostMove hmove

end Sys2Proof.Proofs
end

section
/-! PROOF. No step reads L, G or the output: from states that differ only there it gives states that differ only there (spec
R17, R20). -/

namespace Sys2Proof.Machine

/-- The state with other values in the three fields that no instruction reads. -/
def State.withUnread (s : State) (l g : Bool) (o : List Byte) : State := { s with flagL := l, flagG := g, out := o }

theorem State.compareFlags_withUnread (s : State) (p q : Byte) (l g : Bool) (o : List Byte) :
    (s.withUnread l g o).compareFlags p q =
      (s.compareFlags p q).withUnread (s.compareFlags p q).flagL (s.compareFlags p q).flagG o := by
  unfold compareFlags
  split_ifs <;> rfl

section unread
variable {s t : State} {i : Instr} (l g : Bool) (o : List Byte)

/-- A completed instruction completes from the other state too; the three fields of the next state are the old ones if they were
the old ones before. -/
theorem Completes.withUnread (h : Completes s i t) :
    ∃ l' g' o', Completes (s.withUnread l g o) i (t.withUnread l' g' o') ∧ (o = s.out → o' = t.out) ∧
      (l = s.flagL → g = s.flagG → l' = t.flagL ∧ g' = t.flagG) := by
  cases h with
  | hlt => exact ⟨l, g, o, .hlt, id, And.intro⟩
  | ret hsp => exact ⟨l, g, o, .ret hsp, id, And.intro⟩
  | push hr hsp => exact ⟨l, g, o, .push hr hsp, id, And.intro⟩
  | pop hr hsp => exact ⟨l, g, o, .pop hr hsp, id, And.intro⟩
  | @prn _ r hr => exact ⟨l, g, o ++ [s.reg r], .prn hr, congrArg (· ++ [s.reg r]), And.intro⟩
  | call hr hpc hsp => exact ⟨l, g, o, .call hr hpc hsp, id, And.intro⟩
  | jmp hr => exact ⟨l, g, o, .jmp hr, id, And.intro⟩
  | jeqTaken hE hr => exact ⟨l, g, o, .jeqTaken hE hr, id, And.intro⟩
  | jeqUntaken hE => exact ⟨l, g, o, .jeqUntaken hE, id, And.intro⟩
  | jneTaken hE hr => exact ⟨l, g, o, .jneTaken hE hr, id, And.intro⟩
  | jneUntaken hE => exact ⟨l, g, o, .jneUntaken hE, id, And.intro⟩
  | ldi hr => exact ⟨l, g, o, .ldi hr, id, And.intro⟩
  | add ha hb => exact ⟨l, g, o, .add ha hb, id, And.intro⟩
  | mul ha hb => exact ⟨l, g, o, .mul ha hb, id, And.intro⟩
  | @cmp _ _ a b ha hb =>
    have hcmp := Completes.cmp (s := s.withUnread l g o) ha hb
    rw [State.compareFlags_withUnread] at hcmp
    exact ⟨_, _, o, hcmp, fun ho => ho.trans (s.compareFlags_out _ _).symm, fun _ _ => ⟨rfl, rfl⟩⟩

theorem Raises.withUnread {k : ErrorKind} (h : Raises s i k) : Raises (s.withUnread l g o) i k := by
  cases h with
  | illegalFirst hops hacc hb => exact .illegalFirst hops hacc hb
  | illegalSecond hops ha hb => exact .illegalSecond hops ha hb
  | pushEmpty hr hsp => exact .pushEmpty hr hsp
  | callEmpty hr hpc hsp => exact .callEmpty hr hpc hsp
  | callReturn hr hpc => exact .callReturn hr hpc
  | popFull hr hsp => exact .popFull hr hsp
  | retFull hsp => exact .retFull hsp

theorem step_withUnread (h : step s = .next t) :
    ∃ l' g' o', step (s.withUnread l g o) = .next (t.withUnread l' g' o') ∧ (o = s.out → o' = t.out) ∧
      (l = s.flagL → g = s.flagG → l' = t.flagL ∧ g' = t.flagG) := by
  have hfetch : fetchInstr (s.withUnread l g o) = fetchInstr s := fetchInstr_congr rfl rfl
  obtain ⟨hrun, ⟨k, hk, rfl⟩ | ⟨i, hi, hexec⟩⟩ := step_cases h
  · exact ⟨l, g, o, step_of_fetch_error hrun (hfetch.trans hk), id, And.intro⟩
  · rw [step_of_fetch (s := s.withUnread l g o) hrun (hfetch.trans hi)]
    obtain hcompletes | ⟨k, hraises, rfl⟩ := exec_cases hexec
    · obtain ⟨l', g', o', hother, hrest⟩ := hcompletes.withUnread l g o
      exact ⟨l', g', o', hother.exec_eq, hrest⟩
    · exact ⟨l, g, o, (hraises.withUnread l g o).exec_eq, id, And.intro⟩

end unread

/-- What a step does to the output: a PRN at `pc` that did not raise appended its register, or it is as before (spec R20). -/
theorem step_out {s t : State} (h : step s = .next t) :
    (∃ (b : Byte) (r : Reg), Statements.AtPc s (.prn b) ∧ b.toNat = r.val ∧ t.out = s.out ++ [s.reg r]) ∨
      (t.out = s.out ∧ ∀ b, Statements.AtPc s (.prn b) → ∃ k, t = s.raise k) := by
  obtain ⟨k, -, rfl⟩ | ⟨i, hat, hcompletes⟩ := step_outcomes h
  · exact .inr ⟨rfl, fun _ _ => ⟨k, rfl⟩⟩
  · by_cases hi : ∃ b, i = .prn b
    · obtain ⟨b, rfl⟩ := hi
      cases hcompletes with
      | prn hr => exact .inl ⟨b, _, hat, hr, rfl⟩
    · have hne : ∀ b, i ≠ .prn b := fun b hb => hi ⟨b, hb⟩
      exact .inr ⟨hcompletes.out_eq hne, fun b hb => absurd (atPc_unique hat hb) (hne b)⟩

end Sys2Proof.Machine

namespace Sys2Proof.Proofs

open Sys2Proof.Machine

/-- Settles O21: the step from the changed state, with the output as it was. -/
theorem lessAndGreaterAreNeverRead : Obligations.LessAndGreaterAreNeverRead := by
  intro s t l g h
  obtain ⟨l', g', o', hstep, hout, -⟩ := step_withUnread l g s.out h
  obtain rfl := hout rfl
  exact ⟨_, hstep, rfl⟩

/-- Settles O19: what a step does to the output, the step from the state with another output, and the host's text. -/
theorem outputIsAppendedByPrnOnly : Obligations.OutputIsAppendedByPrnOnly := by
  refine ⟨rfl, fun s t => step_out, fun s t o h => ?unread, hostText_append_singleton⟩
  case unread =>
    obtain ⟨l', g', o', hstep, -, hflags⟩ := step_withUnread s.flagL s.flagG o h
    obtain ⟨rfl, rfl⟩ := hflags rfl rfl
    exact ⟨_, hstep, rfl⟩

end Sys2Proof.Proofs
end

section
/-! PROOF. Frames: what each group of instructions leaves unchanged, whether it completes or raises (spec R10, section 9). -/

namespace Sys2Proof.Machine

open Sys2Proof.Statements

section frames
variable {i : Instr} {s t : State} (h : exec i s = .next t)
include h

theorem exec_reg_eq {r : Reg} (hr : ¬ WritesRegister i r) : t.reg r = s.reg r := by
  obtain hcompletes | ⟨k, -, rfl⟩ := exec_cases h
  · exact hcompletes.reg_eq hr
  · rfl

theorem exec_sameFlags (hi : ∀ a b, i ≠ .cmp a b) : SameFlags s t := by
  obtain hcompletes | ⟨k, -, rfl⟩ := exec_cases h
  · exact hcompletes.sameFlags hi
  · exact ⟨rfl, rfl, rfl⟩

theorem exec_out_eq (hi : ∀ b, i ≠ .prn b) : t.out = s.out := by
  obtain hcompletes | ⟨k, -, rfl⟩ := exec_cases h
  · exact hcompletes.out_eq hi
  · rfl

theorem exec_sameMemory (hi : ∀ b, i ≠ .push b ∧ i ≠ .call b) : SameMemory s t := by
  obtain hcompletes | ⟨k, -, rfl⟩ := exec_cases h
  · exact hcompletes.sameMemory hi
  · exact fun _ => rfl

/-- A cell changes only if it is the one at the decremented SP (spec R95, R100). -/
theorem exec_read_eq {b : Nat} (hb : ∀ s1, s.decSp = .ok s1 → b ≠ s1.sp.toNat) : t.mem.read b = s.mem.read b := by
  obtain hcompletes | ⟨k, -, rfl⟩ := exec_cases h
  · obtain hmem | ⟨-, hsp, v, hmem⟩ := hcompletes.mem_eq
    · rw [hmem]
    · have hne := hb _ (s.decSp_of_ne hsp)
      rw [State.sp_setSp] at hne
      rw [hmem]
      exact Memory.read_write_other s.mem hne v
  · rfl

end frames

/-- A CMP with an operand above 7 raises (spec R56, R89). -/
theorem exec_cmp_illegal {a b : Byte} {s t : State} (hab : 7 < a.toNat ∨ 7 < b.toNat) (h : exec (.cmp a b) s = .next t) :
    ∃ k, t = s.raise k := by
  obtain hcompletes | ⟨k, -, ht⟩ := exec_cases h
  · cases hcompletes with
    | cmp ha hb => omega
  · exact ⟨k, ht⟩

/-- A CMP of two registers leaves exactly one flag set (spec R89). -/
theorem exec_cmp_exactlyOneFlag {a b : Byte} {s t : State} (ha : a.toNat ≤ 7) (hb : b.toNat ≤ 7)
    (h : exec (.cmp a b) s = .next t) : ExactlyOneFlag t := by
  obtain ⟨p, hp⟩ := exists_reg_of_le ha
  obtain ⟨q, hq⟩ := exists_reg_of_le hb
  rw [exec_cmp_legal s a b p q hp hq] at h
  cases h
  exact s.exactlyOneFlag_compareFlags _ _

end Sys2Proof.Machine

namespace Sys2Proof.Proofs

open Sys2Proof.Machine

/-- Settles O20: the frame of every other instruction, and CMP by whether its operands name registers. -/
theorem flagsAreWrittenByCmpOnly : Obligations.FlagsAreWrittenByCmpOnly := by
  intro i s t h
  refine ⟨exec_sameFlags h, ?_⟩
  rintro a b rfl
  refine ⟨fun ha hb => exec_cmp_exactlyOneFlag ha hb h, fun hab => ?_⟩
  obtain ⟨k, rfl⟩ := exec_cmp_illegal hab h
  exact ⟨⟨rfl, rfl, rfl⟩, k, rfl⟩

/-- Settles O38: LDI, ADD and MUL write the register of their first operand. -/
theorem registerFormsFrame : Obligations.RegisterFormsFrame := by
  rintro i op1 op2 s t (rfl | rfl | rfl) h
  all_goals exact ⟨fun r hr => exec_reg_eq h hr, exec_sameFlags h nofun, exec_sameMemory h fun _ => ⟨nofun, nofun⟩,
    exec_out_eq h nofun, exec_sameControlOrRaised (by nofun) h⟩

/-- Settles O39: none of these forms writes a register or memory; CMP alone writes flags, PRN alone the output. -/
theorem formsWithoutDestinationFrame : Obligations.FormsWithoutDestinationFrame := by
  intro i op1 op2 s t hi h
  refine ⟨fun r => exec_reg_eq h ?registers, exec_sameMemory h fun b => ?memory, fun hcmp => exec_sameFlags h ?flags,
    fun hprn => exec_out_eq h ?out, fun hhlt => exec_sameControlOrRaised hhlt h, ?hlt⟩
  case registers => obtain rfl | rfl | rfl | rfl | rfl | rfl := hi <;> exact id
  case memory => obtain rfl | rfl | rfl | rfl | rfl | rfl := hi <;> exact ⟨nofun, nofun⟩
  case flags =>
    rintro a b rfl
    exact hcmp (by simpa using hi)
  case out =>
    rintro b rfl
    exact hprn (by simpa using hi)
  case hlt =>
    rintro rfl
    rw [exec_hlt] at h
    cases h
    rfl

/-- Settles O40: POP writes R7 and its destination, RET R7. -/
theorem stackReadFrame : Obligations.StackReadFrame := by
  refine fun op1 s t => ⟨fun h => ⟨fun r hr7 hr => exec_reg_eq h ?pop, ?_⟩, fun h => ⟨fun r hr7 => exec_reg_eq h hr7, ?_⟩⟩
  case pop => exact not_or.2 ⟨hr7, hr⟩
  all_goals exact ⟨exec_sameFlags h nofun, exec_sameMemory h fun _ => ⟨nofun, nofun⟩, exec_out_eq h nofun,
    exec_sameControlOrRaised (by nofun) h⟩

/-- Settles O41: PUSH and CALL write R7 and the cell at the decremented SP. -/
theorem stackWriteFrame : Obligations.StackWriteFrame := by
  rintro i op1 s t (rfl | rfl) h
  all_goals exact ⟨fun r hr => exec_reg_eq h hr, exec_sameFlags h nofun, exec_out_eq h nofun,
    exec_sameControlOrRaised (by nofun) h, fun b hb => exec_read_eq h hb⟩

end Sys2Proof.Proofs
end

section
/-! PROOF. The stack discipline: what POP and RET find after PUSH and CALL (spec R97, R101). -/

namespace Sys2Proof.Machine.State

/-- The byte at SP after a byte was stacked is that byte (spec R97). -/
theorem memRead_sp_stack {s : State} (hwf : s.mem.wf) (v : Byte) : (s.stack v).memRead (s.stack v).sp = v := by
  rw [stack_sp]
  exact (memRead_memWrite (s := s.setSp (s.sp - 1#8)) hwf _ _ v).trans (if_pos rfl)

/-- SP below another value is not 255, so a pop after a push does not raise (spec R13). -/
theorem sp_sub_one_ne {s : State} (hsp : s.sp ≠ 0#8) : s.sp - 1#8 ≠ 255#8 := by bv_omega

theorem toNat_sp_sub_one_add_one {s : State} (hsp : s.sp ≠ 0#8) : (s.sp - 1#8).toNat + 1 = s.sp.toNat := by bv_omega

theorem toNat_sp_add_one {s : State} (hsp : s.sp ≠ 255#8) : (s.sp + 1#8).toNat = s.sp.toNat + 1 := by bv_omega

theorem sp_popSp (s : State) : s.popSp.sp = s.sp + 1#8 := sp_setSp s _

theorem reg_popSp_of_ne (s : State) {r : Reg} (h : r ≠ 7) : s.popSp.reg r = s.reg r := reg_setSp_of_ne s _ h

section afterPush
variable {s : State} (hwf : s.mem.wf) (v : Byte) (n : Nat)
include hwf

/-- A register loaded from the stack after a push takes the stacked byte (spec R97). -/
theorem loadTop_stack (q : Reg) : ((s.stack v).advance n).loadTop q = ((s.stack v).advance n).setReg q v :=
  congrArg (((s.stack v).advance n).setReg q) (memRead_sp_stack hwf v)

/-- POP's increment after a push finds the decremented SP, for R7 because it was the byte stacked (spec R97; D19, log 12). -/
theorem sp_loadTop_stack {q : Reg} (h : q ≠ 7 ∨ v = s.sp - 1#8) :
    (((s.stack v).advance n).loadTop q).sp = s.sp - 1#8 := by
  rw [loadTop_stack hwf, sp_eq_reg, reg_setReg]
  split_ifs with hq
  · exact h.resolve_left (not_not.2 hq)
  · exact s.stack_sp v

/-- SP is back after a push and a pop (spec R97). -/
theorem sp_pop_stack {q : Reg} (h : q ≠ 7 ∨ v = s.sp - 1#8) :
    (((s.stack v).advance n).loadTop q).popSp.sp = s.sp := by
  rw [sp_popSp, sp_loadTop_stack hwf v n h, BitVec.sub_add_cancel]

theorem reg_pop_stack {q r : Reg} (hr : r ≠ 7) :
    (((s.stack v).advance n).loadTop q).popSp.reg r = if q = r then v else s.reg r := by
  rw [reg_popSp_of_ne _ hr, loadTop_stack hwf, reg_setReg, reg_advance, s.stack_reg_of_ne v hr]

end afterPush

end Sys2Proof.Machine.State

namespace Sys2Proof.Machine

open Sys2Proof.Statements

/-- POP of the register that was pushed restores every register: SP because the increment undoes the decrement, the register
because its own byte comes back (spec R97). -/
theorem exec_pop_after_push {s : State} (hwf : s.mem.wf) {op1 : Byte} {r : Reg} (hr : op1.toNat = r.val) (hsp : s.sp ≠ 0#8) :
    ∃ u, exec (.pop op1) ((s.stack ((s.setSp (s.sp - 1#8)).reg r)).advance 2) = .next u ∧ SameRegisters s u := by
  have hbyte : r ≠ 7 ∨ (s.setSp (s.sp - 1#8)).reg r = s.sp - 1#8 := by
    rw [State.reg_setSp]
    exact (ne_or_eq r 7).imp_right fun h => if_pos h
  have hload := State.sp_loadTop_stack hwf _ 2 hbyte
  refine ⟨_, exec_pop_legal _ op1 r hr (hload.trans_ne (State.sp_sub_one_ne hsp)), fun x => ?_⟩
  by_cases hx : x = 7
  · subst hx
    exact State.sp_pop_stack hwf _ 2 hbyte
  · rw [State.reg_advance, State.reg_pop_stack hwf _ 2 hx]
    split_ifs with hrx
    · rw [hrx, s.reg_setSp_of_ne _ hx]
    · rfl

/-- POP of another register than R7 after a push copies the byte; SP and the cell are as the push found and left them (spec
R97). -/
theorem exec_pop_copies {s : State} (hwf : s.mem.wf) (hsp : s.sp ≠ 0#8) (v : Byte) {op2 : Byte} {q : Reg}
    (hq : op2.toNat = q.val) (hq7 : q ≠ 7) : ∃ u, exec (.pop op2) ((s.stack v).advance 2) = .next u ∧
      u.reg q = v ∧ u.sp = s.sp ∧ u.mem.read (s.sp.toNat - 1) = v := by
  have hload := State.sp_loadTop_stack hwf v 2 (.inl hq7)
  refine ⟨_, exec_pop_legal _ op2 q hq (hload.trans_ne (State.sp_sub_one_ne hsp)), ?reg, ?sp, State.stack_read_below hwf hsp v⟩
  case reg => rw [State.reg_advance, State.reg_pop_stack hwf v 2 hq7, if_pos rfl]
  case sp => exact State.sp_pop_stack hwf v 2 (.inl hq7)

end Sys2Proof.Machine

namespace Sys2Proof.Proofs

open Sys2Proof.Machine

/-- Settles O42: PUSH and CALL stack a byte, POP and RET find it; each moves SP by one. -/
theorem stackDiscipline : Obligations.StackDiscipline := by
  intro s hwf
  refine ⟨fun op1 r hr hsp => ⟨_, exec_push_legal s op1 r hr hsp, ?pushSp, exec_pop_after_push hwf hr hsp,
    fun op2 q hq hq7 hr7 => ?copy⟩,
    fun op1 r hr hsp hpc => ⟨_, exec_call_legal s op1 r hr hpc hsp, ?callSp, fun a ha => ?callMem⟩,
    fun op1 r hr hr7 hsp => ?pop, fun hsp => ⟨_, exec_ret_legal s hsp, ?ret⟩⟩
  case pushSp => rw [State.sp_advance, State.stack_sp, State.toNat_sp_sub_one_add_one hsp]
  case copy =>
    rw [s.reg_setSp_of_ne _ hr7]
    exact exec_pop_copies hwf hsp (s.reg r) hq hq7
  case callSp => rw [State.sp_redirect, State.stack_sp, State.toNat_sp_sub_one_add_one hsp]
  case callMem =>
    rw [State.sp_redirect, State.stack_sp, State.toNat_sp_sub_one hsp] at ha
    exact State.stack_read_other hsp _ ha
  case pop =>
    have hload := s.loadTop_sp_of_ne hr7
    refine ⟨_, exec_pop_legal s op1 r hr (hload.trans_ne hsp), ?_⟩
    rw [State.sp_advance, State.sp_popSp, hload, State.toNat_sp_add_one hsp]
  case ret => rw [State.sp_redirect, State.sp_popSp, State.toNat_sp_add_one hsp]

/-- Settles O43: RET finds the return address in the cell at the SP that CALL left. -/
theorem callThenRetReturnsPastTheCall : Obligations.CallThenRetReturnsPastTheCall := by
  intro s t u op1 hwf hpc hsp hle hcall husp hread
  obtain ⟨r, hr⟩ := exists_reg_of_le hle
  rw [exec_call_legal s op1 r hr hpc hsp] at hcall
  cases hcall
  rw [State.sp_redirect, State.stack_sp] at husp
  rw [State.sp_redirect] at hread
  have hbyte : u.memRead u.sp = BitVec.ofNat 8 (s.pc + 2) := by
    rw [State.memRead, husp, ← s.stack_sp (BitVec.ofNat 8 (s.pc + 2)), hread]
    exact State.memRead_sp_stack hwf _
  refine ⟨_, exec_ret_legal u (husp.trans_ne (State.sp_sub_one_ne hsp)), ?pc, ?sp⟩
  case pc =>
    rw [State.redirect_pc, hbyte, BitVec.toNat_ofNat]
    omega
  case sp => rw [State.sp_redirect, State.sp_popSp, husp, BitVec.sub_add_cancel]

/-- Settles O44: the next state's memory is the old one with the stacked byte, and its step fetches from its memory. -/
theorem nextFetchSeesThePushedByte : Obligations.NextFetchSeesThePushedByte := by
  rintro s i op1 v r hwf hrun hr hsp (⟨rfl, hv⟩ | ⟨rfl, hpc, hv⟩)
  · rw [← s.reg_setSp] at hv
    exact ⟨_, exec_push_legal s op1 r hr hsp, stepsOnBytes_of_read hrun fun a => by rw [hv]; exact State.stack_read hwf hsp _ a⟩
  · have hv : v = BitVec.ofNat 8 (s.pc + 2) := by rw [← hv, BitVec.ofNat_toNat, BitVec.setWidth_eq]
    exact ⟨_, exec_call_legal s op1 r hr hpc hsp,
      stepsOnBytes_of_read hrun fun a => by rw [hv]; exact State.stack_read hwf hsp _ a⟩

end Sys2Proof.Proofs
end

section
/-! PROOF. Runs: two steps from memory, and a run by its fuel (spec R75, R144). -/

namespace Sys2Proof.Machine

/-- The step of a LDI and of a PRN that lie inside memory (spec R70, R80, R81). -/
theorem step_ldi {s : State} (hrun : s.run = .running) (hop : s.mem.read s.pc = 0x82#8) (hpc : s.pc + 2 ≤ 255) :
    step s = exec (.ldi (s.mem.read (s.pc + 1)) (s.mem.read (s.pc + 2))) s :=
  step_fits (o := .ldi) hrun (Opcode.ofByte?_eq_some_iff.2 hop) (by rw [hop]; exact hpc)

theorem step_prn {s : State} (hrun : s.run = .running) (hop : s.mem.read s.pc = 0x47#8) (hpc : s.pc + 1 ≤ 255) :
    step s = exec (.prn (s.mem.read (s.pc + 1))) s :=
  step_fits (o := .prn) hrun (Opcode.ofByte?_eq_some_iff.2 hop) (by rw [hop]; exact hpc)

theorem runFor_halted {s : State} (h : s.run = .halted) (k : Nat) : runFor k s = s := by
  cases k with
  | zero => rfl
  | succ k => rw [runFor, step_halted h]

theorem runFor_succ {s t : State} (h : step s = .next t) (k : Nat) : runFor (k + 1) s = runFor k t := by
  rw [runFor, h]

/-- A run may be cut anywhere (spec R144). -/
theorem runFor_add (s : State) (j k : Nat) : runFor (j + k) s = runFor k (runFor j s) := by
  induction j generalizing s with
  | zero => rw [Nat.zero_add, runFor]
  | succ j ih =>
    cases hrun : s.run with
    | running =>
      obtain ⟨t, ht⟩ := step_answers hrun
      rw [Nat.succ_add, runFor_succ ht, runFor_succ ht, ih]
    | halted => rw [runFor_halted hrun, runFor_halted hrun, runFor_halted hrun]

end Sys2Proof.Machine

namespace Sys2Proof.Proofs

open Sys2Proof.Machine

/-- Settles O45: LDI leaves memory alone, so the second step finds the PRN behind it. -/
theorem ldiThenPrnOutputsTheValue : Obligations.LdiThenPrnOutputsTheValue := by
  intro s op1 v hrun hle hpc hop hop1 hv hop' hop1'
  obtain ⟨r, hr⟩ := exists_reg_of_le hle
  have hldi := step_ldi hrun hop (by omega)
  rw [hop1, hv, exec_ldi_legal s op1 v r hr] at hldi
  let t := (s.setReg r v).advance 3
  have hoperand : t.mem.read (t.pc + 1) = op1 := hop1'
  have hprn := step_prn (s := t) hrun hop' (show s.pc + 3 + 1 ≤ 255 by omega)
  rw [hoperand, exec_prn_legal t op1 r hr] at hprn
  exact ⟨t, _, hldi, hprn, by simp [t], rfl, hrun⟩

/-- Settles O47: a run stops in HALTED and may be cut anywhere. -/
theorem runStopsAtTheFirstHaltedState : Obligations.RunStopsAtTheFirstHaltedState :=
  ⟨fun _ k h => runFor_halted h k, runFor_add, fun s j k h => by rw [runFor_add, runFor_halted h]⟩

end Sys2Proof.Proofs
end
